-- ==== Sys2Proof/Word.lean ====
section
/-! DEFINITION. The word types of CRCGEN: the widths the spec gives its registers, message bytes and commands. -/

namespace Sys2Proof

/-- A register, table entry, operand or response: 32 bits (`00_scope.md` R4, decision D4). -/
abbrev Word := BitVec 32

/-- One message byte, preset id or table index: 8 bits (`20_memory.md` R30, R35). -/
abbrev Byte := BitVec 8

/-- One command word: 36 bits, `op` in 35:32 and `arg` in 31:0 (`30_encoding.md` R46). -/
abbrev CmdWord := BitVec 36

end Sys2Proof
end

