-- ==== Sys2Proof/Config.lean ====
section
/-! DEFINITION. What is fixed for one block and not changed by any command: the parameters of `00_scope.md` R4.
The configuration record stands in `State` as a field no command writes, so that a claim about every state is a claim
for every choice of the parameters. -/

namespace Sys2Proof

/-- The width selection `CTRL.WSEL` (`10_state.md` R11, `00_scope.md` R6): no width, 8, 16 or 32 bits. -/
inductive WidthSel where
  | unselected
  | w8
  | w16
  | w32
  deriving DecidableEq, Repr

/-- A polynomial descriptor: width, polynomial, initial value, two reflection flags and final XOR value, with the three
values at register width (`10_state.md` R10 to R14; one row of the preset ROM, `44_standard_variants.md` R90). -/
structure Descriptor where
  wsel   : WidthSel
  poly   : Word
  init   : Word
  refin  : Bool
  refout : Bool
  xorout : Word
  deriving DecidableEq, Repr

/-- The open latencies `LAT_UPDS`, `LAT_UPDT`, `LAT_TGEN`, `LAT_OTHER` (`00_scope.md` R4): finite, so naturals, and
read by no rule (`70_reset_and_hazards.md` R140). -/
structure Latencies where
  upds  : Nat
  updt  : Nat
  tgen  : Nat
  other : Nat
  deriving DecidableEq, Repr

/-- The parameters of the block (`00_scope.md` R4): the descriptor of preset 0, `CRC8_DESC`, and the latencies.
DESIGN CHOICE (log entry 2): R4 and D8 give `CRC8_DESC` a default and no range; here it ranges over every `Descriptor`, whatever its
width (no width selected included) and with any bits above the width. -/
structure Config where
  crc8 : Descriptor
  lat  : Latencies
  deriving DecidableEq, Repr

/-- The default of `CRC8_DESC`: (W=8, POLY=0x07, INIT=0, REFIN=0, REFOUT=0, XOROUT=0) (`00_scope.md` R4, R92, D8). -/
def Config.crc8Default : Descriptor :=
  { wsel := .w8, poly := 0x07#32, init := 0#32, refin := false, refout := false, xorout := 0#32 }

/-- The configuration `State.reset` starts with: the default `CRC8_DESC`.
DESIGN CHOICE (log entry 2): the latencies are open and read by nothing; they stand at 0. -/
def Config.default : Config :=
  { crc8 := Config.crc8Default, lat := { upds := 0, updt := 0, tgen := 0, other := 0 } }

end Sys2Proof
end

