-- ==== Sys2Proof/Syntax.lean ====
section
/-! DEFINITION. The command syntax: `Instr`, one constructor per row of `spec/opcode_table.json` (the twelve commands
and the four reserved opcodes, `30_encoding.md` R47), and the lines of the assembler notation (R54, R55). -/

namespace Sys2Proof

/-- The four read views of `RDREG` (`30_encoding.md` R48 format `S`, `20_memory.md` R30). -/
inductive RegView where
  | status
  | poly
  | init
  | xorout
  deriving DecidableEq, Repr

/-- One command. Reserved bits of `arg` are no operand (`30_encoding.md` R51); a reserved opcode has no operand at all,
since its effect does not depend on `arg` (`60_exceptions.md` R112). -/
inductive Instr where
  /-- `WRCTL wsel, refin, refout` (R60). -/
  | wrctl (wsel : WidthSel) (refin refout : Bool)
  /-- `WRPOLY value` (R61). -/
  | wrpoly (value : Word)
  /-- `WRINIT value` (R62). -/
  | wrinit (value : Word)
  /-- `WRXOR value` (R63). -/
  | wrxor (value : Word)
  /-- `SELP id` (R91). Every 8-bit id is an operand; ids 6 to 255 are reserved and raise `E_PRESET`. -/
  | selp (id : Byte)
  /-- `RDREG sel` (R64). -/
  | rdreg (sel : RegView)
  /-- `INIT` (R72). -/
  | init
  /-- `SEED value` (R99). -/
  | seed (value : Word)
  /-- `UPDS byte` (R73). -/
  | upds (byte : Byte)
  /-- `UPDT byte` (R86). -/
  | updt (byte : Byte)
  /-- `TGEN` (R81). -/
  | tgen
  /-- `RDCRC` (R75). -/
  | rdcrc
  /-- Reserved opcode 0x0 (R112). -/
  | reserved0
  /-- Reserved opcode 0xD (R112). -/
  | reservedD
  /-- Reserved opcode 0xE (R112). -/
  | reservedE
  /-- Reserved opcode 0xF (R112). -/
  | reservedF
  deriving DecidableEq, Repr

/-- One line of the assembler notation, with its numbers as written (`30_encoding.md` R54), and the two pseudo-commands
(R55). The four reserved opcodes have no line. -/
inductive AsmLine where
  | wrctl (w refin refout : Nat)
  | wrpoly (value : Nat)
  | wrinit (value : Nat)
  | wrxor (value : Nat)
  | selp (id : Nat)
  | rdreg (sel : Nat)
  | init
  | seed (value : Nat)
  | upds (byte : Nat)
  | updt (byte : Nat)
  | tgen
  | rdcrc
  | msgs (bytes : List Nat)
  | msgt (bytes : List Nat)
  deriving DecidableEq, Repr

end Sys2Proof
end

