-- ==== Sys2Proof/WellFormed.lean ====
section
/-! DEFINITION. Well-formedness. A command is well formed when its opcode is one of the twelve of `30_encoding.md` R47;
a reserved opcode "selects no command" (R50). An assembler line is well formed when every number in it fits its operand
(R54). The operands of `Instr` are typed by their widths, so nothing else about a command can be ill formed. Nothing in
the machine asks for well-formedness: a reserved opcode has the effect of `60_exceptions.md` R112. -/

namespace Sys2Proof

/-- The command's opcode is a defined command, 0x1 to 0xC (`30_encoding.md` R47, R50). -/
def Instr.wellFormed : Instr → Bool
  | .wrctl _ _ _ => true
  | .wrpoly _ => true
  | .wrinit _ => true
  | .wrxor _ => true
  | .selp _ => true
  | .rdreg _ => true
  | .init => true
  | .seed _ => true
  | .upds _ => true
  | .updt _ => true
  | .tgen => true
  | .rdcrc => true
  | .reserved0 => false
  | .reservedD => false
  | .reservedE => false
  | .reservedF => false

/-- Every number of an assembler line fits its operand (`30_encoding.md` R54: `w` is 0, 8, 16 or 32, a flag is 0 or 1, a
value has 32 bits, a byte is 0 to 255, a preset id has 8 bits, a selector is 0 to 3). -/
def AsmLine.wellFormed : AsmLine → Bool
  | .wrctl w refin refout => [0, 8, 16, 32].contains w && decide (refin < 2) && decide (refout < 2)
  | .wrpoly v => decide (v < 2 ^ 32)
  | .wrinit v => decide (v < 2 ^ 32)
  | .wrxor v => decide (v < 2 ^ 32)
  | .selp id => decide (id < 2 ^ 8)
  | .rdreg sel => decide (sel < 4)
  | .init => true
  | .seed v => decide (v < 2 ^ 32)
  | .upds b => decide (b < 2 ^ 8)
  | .updt b => decide (b < 2 ^ 8)
  | .tgen => true
  | .rdcrc => true
  | .msgs bs => bs.all (fun b => decide (b < 2 ^ 8))
  | .msgt bs => bs.all (fun b => decide (b < 2 ^ 8))

end Sys2Proof
end

