-- ==== Sys2Proof/Decode.lean ====
section
/-! DEFINITION. Decoding and encoding of the 36-bit command word (`30_encoding.md` R46 to R51), and the opcode table as
data. `decode` is total: every one of the 2^36 words has a meaning (R51). -/

namespace Sys2Proof

/-- `op = cmd[35:32]` (R46). -/
def opOf (w : CmdWord) : BitVec 4 := w.extractLsb' 32 4

/-- `arg = cmd[31:0]` (R46). -/
def argOf (w : CmdWord) : Word := w.extractLsb' 0 32

/-- The width selected by a 2-bit `WSEL` code (`10_state.md` R11). -/
def wselOfBits (v : BitVec 2) : WidthSel :=
  match v.getLsbD 1, v.getLsbD 0 with
  | false, false => .unselected
  | false, true  => .w8
  | true,  false => .w16
  | true,  true  => .w32

/-- The 2-bit `WSEL` code of a width selection (`10_state.md` R11). -/
def wselToBits : WidthSel → BitVec 2
  | .unselected => 0b00#2
  | .w8  => 0b01#2
  | .w16 => 0b10#2
  | .w32 => 0b11#2

/-- The view picked by a 2-bit selector: 0 = status word, 1 = `POLY`, 2 = `INIT`, 3 = `XOROUT` (R48 format `S`). -/
def viewOfBits (v : BitVec 2) : RegView :=
  match v.getLsbD 1, v.getLsbD 0 with
  | false, false => .status
  | false, true  => .poly
  | true,  false => .init
  | true,  true  => .xorout

/-- The 2-bit selector of a view (R48 format `S`). -/
def viewToBits : RegView → BitVec 2
  | .status => 0#2
  | .poly   => 1#2
  | .init   => 2#2
  | .xorout => 3#2

/-- The decoder (R46 to R48): the four bits of `op` alone pick the command, the argument format picks its operand bits out
of `arg`, and reserved bits of `arg` are ignored (R51). All sixteen opcodes are listed, the reserved ones (R50) too. -/
def decode (w : CmdWord) : Instr :=
  let op := opOf w
  let arg := argOf w
  match op.getLsbD 3, op.getLsbD 2, op.getLsbD 1, op.getLsbD 0 with
  | false, false, false, false => .reserved0
  | false, false, false, true  => .wrctl (wselOfBits (arg.extractLsb' 0 2)) (arg.getLsbD 2) (arg.getLsbD 3)
  | false, false, true,  false => .wrpoly arg
  | false, false, true,  true  => .wrinit arg
  | false, true,  false, false => .wrxor arg
  | false, true,  false, true  => .selp (arg.extractLsb' 0 8)
  | false, true,  true,  false => .rdreg (viewOfBits (arg.extractLsb' 0 2))
  | false, true,  true,  true  => .init
  | true,  false, false, false => .seed arg
  | true,  false, false, true  => .upds (arg.extractLsb' 0 8)
  | true,  false, true,  false => .updt (arg.extractLsb' 0 8)
  | true,  false, true,  true  => .tgen
  | true,  true,  false, false => .rdcrc
  | true,  true,  false, true  => .reservedD
  | true,  true,  true,  false => .reservedE
  | true,  true,  true,  true  => .reservedF

/-- The opcode of a command (R47). -/
def opcode : Instr → BitVec 4
  | .reserved0 => 0x0#4
  | .wrctl _ _ _ => 0x1#4
  | .wrpoly _ => 0x2#4
  | .wrinit _ => 0x3#4
  | .wrxor _ => 0x4#4
  | .selp _ => 0x5#4
  | .rdreg _ => 0x6#4
  | .init => 0x7#4
  | .seed _ => 0x8#4
  | .upds _ => 0x9#4
  | .updt _ => 0xA#4
  | .tgen => 0xB#4
  | .rdcrc => 0xC#4
  | .reservedD => 0xD#4
  | .reservedE => 0xE#4
  | .reservedF => 0xF#4

/-- The argument of a command, reserved bits zero as an assembler writes them (R48, R51). -/
def operandBits : Instr → Word
  | .wrctl wsel refin refout => 0#28 ++ BitVec.ofBool refout ++ BitVec.ofBool refin ++ wselToBits wsel
  | .wrpoly v => v
  | .wrinit v => v
  | .wrxor v => v
  | .selp id => 0#24 ++ id
  | .rdreg sel => 0#30 ++ viewToBits sel
  | .init => 0#32
  | .seed v => v
  | .upds b => 0#24 ++ b
  | .updt b => 0#24 ++ b
  | .tgen => 0#32
  | .rdcrc => 0#32
  | .reserved0 => 0#32
  | .reservedD => 0#32
  | .reservedE => 0#32
  | .reservedF => 0#32

/-- The encoder: `op << 32 | arg` (R46, R56). -/
def encode (i : Instr) : CmdWord := opcode i ++ operandBits i

/-- The bits of `arg` a command's format uses (R47 column "Argument used", R48); every other bit is reserved. -/
def usedArg : Instr → Word
  | .wrctl _ _ _ => 0x0000000F#32
  | .wrpoly _ => 0xFFFFFFFF#32
  | .wrinit _ => 0xFFFFFFFF#32
  | .wrxor _ => 0xFFFFFFFF#32
  | .selp _ => 0x000000FF#32
  | .rdreg _ => 0x00000003#32
  | .init => 0#32
  | .seed _ => 0xFFFFFFFF#32
  | .upds _ => 0x000000FF#32
  | .updt _ => 0x000000FF#32
  | .tgen => 0#32
  | .rdcrc => 0#32
  | .reserved0 => 0#32
  | .reservedD => 0#32
  | .reservedE => 0#32
  | .reservedF => 0#32

/-- The word has no reserved bit set: what an assembler may write (R51). -/
def reservedBitsZero (w : CmdWord) : Bool := argOf w &&& ~~~usedArg (decode w) == 0#32

/-- The mnemonic of a command, as `spec/opcode_table.json` spells it. -/
def mnemonic : Instr → String
  | .wrctl _ _ _ => "WRCTL"
  | .wrpoly _ => "WRPOLY"
  | .wrinit _ => "WRINIT"
  | .wrxor _ => "WRXOR"
  | .selp _ => "SELP"
  | .rdreg _ => "RDREG"
  | .init => "INIT"
  | .seed _ => "SEED"
  | .upds _ => "UPDS"
  | .updt _ => "UPDT"
  | .tgen => "TGEN"
  | .rdcrc => "RDCRC"
  | .reserved0 => "RESERVED_0"
  | .reservedD => "RESERVED_D"
  | .reservedE => "RESERVED_E"
  | .reservedF => "RESERVED_F"

/-- One row of the opcode table: a word is of the row when its bits under `mask` are `pattern` (R46). -/
structure OpRow where
  mnemonic : String
  mask     : CmdWord
  pattern  : CmdWord
  deriving DecidableEq, Repr

/-- The word is of the row. -/
def ofRow (r : OpRow) (w : CmdWord) : Bool := w &&& r.mask == r.pattern

/-- `spec/opcode_table.json`: mnemonic, mask and match of every row, in the table's order. -/
def opcodeTable : List OpRow :=
  [("WRCTL", 0x100000000#36), ("WRPOLY", 0x200000000#36), ("WRINIT", 0x300000000#36), ("WRXOR", 0x400000000#36),
   ("SELP", 0x500000000#36), ("RDREG", 0x600000000#36), ("INIT", 0x700000000#36), ("SEED", 0x800000000#36),
   ("UPDS", 0x900000000#36), ("UPDT", 0xA00000000#36), ("TGEN", 0xB00000000#36), ("RDCRC", 0xC00000000#36),
   ("RESERVED_0", 0x000000000#36), ("RESERVED_D", 0xD00000000#36), ("RESERVED_E", 0xE00000000#36),
   ("RESERVED_F", 0xF00000000#36)].map (fun r => { mnemonic := r.1, mask := 0xF00000000#36, pattern := r.2 })

/-- Why a number is no command word. -/
inductive DecodeError where
  /-- The number needs more than 36 bits: there is one command length and no second one (R46, R52). -/
  | widerThanACommand
  deriving DecidableEq, Repr

/-- Decode a number: a command word is 36 bits and anything wider is rejected by name (R46, R52). -/
def decodeNat (w : Nat) : Except DecodeError Instr :=
  if w < 2 ^ 36 then .ok (decode (BitVec.ofNat 36 w)) else .error .widerThanACommand

/-- The command the decoder reads from the word whose low `nbits` bits are `w` and whose other bits are zero. -/
def decodeTableWord (nbits w : Nat) : Option Instr :=
  match decodeNat (w % 2 ^ nbits) with
  | .ok i => some i
  | .error _ => none

end Sys2Proof
end

