-- ==== Sys2Proof/Machine/Crc.lean ====
section
/-! DEFINITION. The pure functions of the data path, over remainders of any width `w` (the block uses 8, 16 and 32):
reflection (`00_scope.md` R7), the bit-serial engine (`41_reference_bitserial.md` R70, R71, R74, R76), the table generator
(`42_table_generator.md` R80), the table engine (`43_table_computation.md` R85), its mirror form (R88), and `unfinalize`
(`44_standard_variants.md` R98). -/

namespace Sys2Proof.Machine

/-- `refl_n(v)`: the bit order reversed, `refl_n(v)[i] = v[n-1-i]` (R7). -/
def reflect {n : Nat} (v : BitVec n) : BitVec n := v.reverse

/-- `bitstep(r, W, P)`: one step of polynomial division; the test is made before the shift (R70). -/
def bitStep {w : Nat} (r p : BitVec w) : BitVec w :=
  if r.msb then (r <<< 1) ^^^ p else r <<< 1

/-- `k` bit steps in order. -/
def bitSteps {w : Nat} (p : BitVec w) : Nat → BitVec w → BitVec w
  | 0, r => r
  | k + 1, r => bitSteps p k (bitStep r p)

/-- The message byte as the engines use it: bit-reversed when `refin` is set (`20_memory.md` R32, d of R71 and R85). -/
def inputByte (refin : Bool) (b : Byte) : Byte := if refin then reflect b else b

/-- A byte placed on the top eight bits of a `w`-bit value: `zext_W(d) << (W - 8)` (R71). -/
def topByte (w : Nat) (d : Byte) : BitVec w := d.setWidth w <<< (w - 8)

/-- `bytestep_serial(r, b, W, P, refin)`: xor the byte onto the top of the remainder, then eight bit steps (R71). -/
def byteStepSerial {w : Nat} (r : BitVec w) (b : Byte) (p : BitVec w) (refin : Bool) : BitVec w :=
  bitSteps p 8 (r ^^^ topByte w (inputByte refin b))

/-- `finalize(r, W, refout, X)`: reflection first, then the xor (R74, decision D22). -/
def finalize {w : Nat} (r : BitVec w) (refout : Bool) (x : BitVec w) : BitVec w :=
  (if refout then reflect r else r) ^^^ x

/-- `unfinalize(v, W, refout, X)`: from a CRC back to the remainder it was made from (R98). -/
def unfinalize {w : Nat} (v : BitVec w) (refout : Bool) (x : BitVec w) : BitVec w :=
  if refout then reflect (v ^^^ x) else v ^^^ x

/-- `tblgen(W, P)[i]`: byte `i` through the serial engine from remainder zero, unreflected (R80). -/
def tblgen (w : Nat) (p : BitVec w) (i : Byte) : BitVec w := byteStepSerial 0#w i p false

/-- `bytestep_table(r, b, W, T, refin)`: one table look-up, indexed by the top byte of the remainder xor the byte (R85). -/
def byteStepTable {w : Nat} (r : BitVec w) (b : Byte) (t : Byte → BitVec w) (refin : Bool) : BitVec w :=
  (r <<< 8) ^^^ t (r.extractLsb' (w - 8) 8 ^^^ inputByte refin b)

/-- The remainder after the bytes of a message, in ascending order (`20_memory.md` R31), from remainder `r`. -/
def remAfter {w : Nat} (p : BitVec w) (refin : Bool) : BitVec w → List Byte → BitVec w
  | r, [] => r
  | r, b :: bs => remAfter p refin (byteStepSerial r b p refin) bs

/-- `crc_ref(m, D)`: the CRC of a whole message (R76), with the parts of the descriptor at width `w`. -/
def crcRef {w : Nat} (m : List Byte) (p i : BitVec w) (refin refout : Bool) (x : BitVec w) : BitVec w :=
  finalize (remAfter p refin i m) refout x

/-- One bit step of the mirror form: test bit 0, shift right, xor the reversed polynomial (R88). -/
def mirrorBitStep {w : Nat} (r p : BitVec w) : BitVec w :=
  if r.getLsbD 0 then (r >>> 1) ^^^ p else r >>> 1

/-- `k` bit steps of the mirror form. -/
def mirrorBitSteps {w : Nat} (p : BitVec w) : Nat → BitVec w → BitVec w
  | 0, r => r
  | k + 1, r => mirrorBitSteps p k (mirrorBitStep r p)

/-- The bit-serial byte step of the mirror form (R88). -/
def mirrorByteStepSerial {w : Nat} (r : BitVec w) (b : Byte) (p : BitVec w) : BitVec w :=
  mirrorBitSteps p 8 (r ^^^ b.setWidth w)

/-- The reflected table `T'[i] = refl_W(tblgen(W, P)[refl_8(i)])`, from the unreversed polynomial (R88). -/
def mirrorTable (w : Nat) (p : BitVec w) (i : Byte) : BitVec w := reflect (tblgen w p (reflect i))

/-- The table byte step of the mirror form: index by the low byte, shift right by 8 (R88). -/
def mirrorByteStepTable {w : Nat} (r : BitVec w) (b : Byte) (t : Byte → BitVec w) : BitVec w :=
  (r >>> 8) ^^^ t (r.setWidth 8 ^^^ b)

/-- The end of a message in the mirror form (R88). -/
def mirrorFinalize {w : Nat} (r : BitVec w) (refout : Bool) (x : BitVec w) : BitVec w :=
  (if refout then r else reflect r) ^^^ x

end Sys2Proof.Machine
end

