-- ==== Sys2Proof/Machine/State.lean ====
section
/-! DEFINITION. The state of CRCGEN as plain data (`10_state.md` R10 to R25): the block's own registers, the word its
response channel holds, and, as the model's own fields, what the host does at the ports and the responses it has taken. -/

namespace Sys2Proof.Machine

/-- The control register `CTRL`, 4 bits in three fields (`10_state.md` R11). All 16 values are legal. -/
structure Ctrl where
  wsel   : WidthSel
  refin  : Bool
  refout : Bool
  deriving DecidableEq, Repr

/-- The 2-bit `ECODE`: the cause of the first error since reset (`10_state.md` R18). -/
inductive ErrCode where
  /-- 0: no error. -/
  | noError
  /-- 1, `E_ILLOP`: illegal opcode (`60_exceptions.md` R112). -/
  | illOp
  /-- 2, `E_NOSEL`: data-path command with no width selected (R113). -/
  | noSel
  /-- 3, `E_PRESET`: reserved preset id (R114). -/
  | preset
  deriving DecidableEq, Repr

/-- What the host does at the ports next (`10_state.md` R24; the model's own, log entry 4). -/
inductive HostEvent where
  /-- The host offers a command word on the command channel. -/
  | command (w : CmdWord)
  /-- The host asserts `rsp_ready`: it takes the response word if one is held. -/
  | takeResponse
  /-- The host asserts `rst` (`70_reset_and_hazards.md` R130). -/
  | reset
  deriving DecidableEq, Repr

/-- The machine. The first nine fields are R10's complete state of the block (`CTRL`, `POLY`, `INIT`, `XOROUT`, `REM`,
`TBL`, `TV`, `ERR`, `ECODE`); `rsp` is the response channel of R24 and R25; the last three are the model's own. -/
structure State where
  /-- `CTRL` (R11). -/
  ctrl   : Ctrl
  /-- `POLY` (R12). -/
  poly   : Word
  /-- `INIT` (R13). -/
  init   : Word
  /-- `XOROUT` (R14). -/
  xorout : Word
  /-- `REM`, in the normal domain (R15). -/
  rem    : Word
  /-- `TBL[0..255]` (R16). -/
  tbl    : Vector Word 256
  /-- `TV`: the table is built (R17). -/
  tv     : Bool
  /-- `ERR` (R18). -/
  err    : Bool
  /-- `ECODE` (R18). -/
  ecode  : ErrCode
  /-- The response word held until the host takes it, none when `rsp_valid` is low (R24, R25). -/
  rsp    : Option Word
  /-- The model's own: what the host does next, first event first (`00_scope.md` R9, log entry 4). -/
  input  : List HostEvent
  /-- The model's own: the responses the host has taken, first one first: the observation of R9 (log entry 5). -/
  taken  : List Word
  /-- The model's own place for the configuration record of R4; no command writes it (log entry 2). -/
  cfg    : Config
  deriving DecidableEq, Repr

/-- Why the machine stops with no next state. -/
inductive Fault where
  /-- Raised by `step` when the host offers a command while it has not taken the response held: the block "accepts no
  further command until the word is taken" (R25), the hang of R139, `stuck` in `93_implementation_defined.md` U15.
  Safe: the model stops where the block waits. -/
  | responseNotTaken
  deriving DecidableEq, Repr

/-- Why an instruction has no meaning. -/
inductive Refusal where
  /-- Raised by `exec` for an instruction that has no meaning in this model; no arm of `exec` raises it now. Safe. -/
  | notModelled (mnemonic : String)
  deriving DecidableEq, Repr

/-- The outcome of a step or of a meaning. -/
abbrev Result := Host.Outcome State Fault Refusal

/-- The state after the reset event (`10_state.md` R23): no width selected, the registers zero, the table not valid, no
error, no response held, no command in flight. DESIGN CHOICE (log entry 1): `TBL`, which R23 leaves unspecified, is zero.
DESIGN CHOICE (log entries 2, 4, 5): the model's own fields are the default configuration and two empty lists. -/
def State.reset : State :=
  { ctrl := { wsel := .unselected, refin := false, refout := false }
    poly := 0#32
    init := 0#32
    xorout := 0#32
    rem := 0#32
    tbl := Vector.replicate 256 0#32
    tv := false
    err := false
    ecode := .noError
    rsp := none
    input := []
    taken := []
    cfg := Config.default }

end Sys2Proof.Machine
end

