-- ==== Sys2Proof/Machine/Operands.lean ====
section
/-! DEFINITION. The operand forms: the effective width, the low `W` bits of a register, zero extension, and the views of the
state the data path reads (`00_scope.md` R6, `30_encoding.md` R49, `40_descriptor.md` R65). -/

namespace Sys2Proof.Machine

/-- The effective width `W` of a selection, none when no width is selected (R6). -/
def widthOf : WidthSel → Option Nat
  | .unselected => none
  | .w8  => some 8
  | .w16 => some 16
  | .w32 => some 32

/-- `low(v) = v[W-1:0]` (R6): truncation, never an error (R49). -/
def low (w : Nat) (v : Word) : BitVec w := v.setWidth w

/-- `zext_32(v)` (R5). -/
def zext32 {w : Nat} (v : BitVec w) : Word := v.setWidth 32

/-- `W` in this state. -/
def State.width (s : State) : Option Nat := widthOf s.ctrl.wsel

/-- `TBL[i]` (R16). The index has eight bits and is always in range (R85). -/
def State.entry (s : State) (i : Byte) : Word := s.tbl[i.toNat]'(by have := i.isLt; omega)

/-- The table as the table engine sees it: `i -> low(TBL[i])` (R86). -/
def State.lowTable (s : State) (w : Nat) (i : Byte) : BitVec w := low w (s.entry i)

/-- The remainder `UPDS b` computes at width `w` (R73). -/
def State.serialStep (s : State) (w : Nat) (b : Byte) : BitVec w :=
  byteStepSerial (low w s.rem) b (low w s.poly) s.ctrl.refin

/-- The remainder `UPDT b` computes at width `w` from the table in the state (R86). -/
def State.tableStep (s : State) (w : Nat) (b : Byte) : BitVec w :=
  byteStepTable (low w s.rem) b (s.lowTable w) s.ctrl.refin

/-- The CRC `RDCRC` returns at width `w` (R75). -/
def State.crc (s : State) (w : Nat) : BitVec w := finalize (low w s.rem) s.ctrl.refout (low w s.xorout)

/-- The remainder `SEED v` loads at width `w` (R99). -/
def State.seedRem (s : State) (w : Nat) (v : Word) : BitVec w :=
  unfinalize (low w v) s.ctrl.refout (low w s.xorout)

end Sys2Proof.Machine
end

