-- ==== Sys2Proof/Machine/Flags.lean ====
section
/-! DEFINITION. The flags: the code of an error, and the status word assembled from the state (`10_state.md` R18, R19).
There are no condition codes (R18): no command writes a flag as a side effect of computing a CRC, but for `TV`. -/

namespace Sys2Proof.Machine

/-- The 2-bit `ECODE` value (R18). -/
def ecodeBits : ErrCode → BitVec 2
  | .noError => 0#2
  | .illOp   => 1#2
  | .noSel   => 2#2
  | .preset  => 3#2

/-- The status word: `WSEL` in 1:0, `REFIN` 2, `REFOUT` 3, `TV` 4, `ERR` 5, `ECODE` 7:6, zero above (R19). -/
def State.statusWord (s : State) : Word :=
  0#24 ++ ecodeBits s.ecode ++ BitVec.ofBool s.err ++ BitVec.ofBool s.tv ++ BitVec.ofBool s.ctrl.refout
    ++ BitVec.ofBool s.ctrl.refin ++ wselToBits s.ctrl.wsel

end Sys2Proof.Machine
end

