-- ==== Sys2Proof/Machine/Ops.lean ====
section
/-! DEFINITION. The named operations over the registers, the table, the error flag and the ports, once each; the
meanings are built from them. There is no memory (`20_memory.md` R30): the table store is a register file of its own. -/

namespace Sys2Proof.Machine

/-- Write `CTRL` (R60). -/
def State.setCtrl (s : State) (c : Ctrl) : State := { s with ctrl := c }

/-- Write `POLY` (R61). -/
def State.setPoly (s : State) (v : Word) : State := { s with poly := v }

/-- Write the `INIT` register (R62). -/
def State.setInit (s : State) (v : Word) : State := { s with init := v }

/-- Write `XOROUT` (R63). -/
def State.setXorout (s : State) (v : Word) : State := { s with xorout := v }

/-- `REM <- zext_32(v)` (R6, R15). -/
def State.setRem {w : Nat} (s : State) (v : BitVec w) : State := { s with rem := zext32 v }

/-- `TV <- 0` (R17). The old entries of `TBL` stay (`93_implementation_defined.md` U1, log entry 1). -/
def State.invalidateTable (s : State) : State := { s with tv := false }

/-- The 256 entries of a table: `TBL[i] = zext_32(tblgen(W, P)[i])` (R81). Irreducible, so that no proof about the state unfolds
256 entries by accident; `entry_buildTable` (Laws/Ops.lean) is what proofs use, and the kernel still computes it. -/
@[irreducible] def builtTable (w : Nat) (p : BitVec w) : Vector Word 256 :=
  Vector.ofFn (fun i => zext32 (tblgen w p (BitVec.ofNat 8 i.val)))

/-- Build the whole table for width `w` and the current `POLY`, and set `TV` (R81, R86). -/
def State.buildTable (s : State) (w : Nat) : State :=
  { s with tbl := builtTable w (low w s.poly), tv := true }

/-- The lazy build: build the table when it is not valid, else leave it (R82, R86). -/
def State.ensureTable (s : State) (w : Nat) : State := if s.tv then s else s.buildTable w

/-- The four descriptor registers from a descriptor (R91; the same as the four write commands, R65). -/
def State.loadDescriptor (s : State) (d : Descriptor) : State :=
  (((s.setCtrl { wsel := d.wsel, refin := d.refin, refout := d.refout }).setPoly d.poly).setInit d.init).setXorout d.xorout

/-- `respond(v)`: put the word on the response channel (R8, R25). -/
def State.respond (s : State) (v : Word) : State := { s with rsp := some v }

/-- `flag_error(c)`: what CRCGEN does in place of taking an exception (R110, R111). The first error since reset sets `ERR`
and `ECODE`; a later one changes nothing. Nothing else is written and there is nothing to return to (R118). -/
def State.flagError (s : State) (c : ErrCode) : State :=
  if s.err then s else { s with err := true, ecode := c }

/-- A data-path command: `E_NOSEL` when no width is selected, else its effect at the selected width (R113). -/
def State.onWidth (s : State) (effect : Nat → State) : Result :=
  match s.width with
  | none => .next (s.flagError .noSel)
  | some w => .next (effect w)

/-- The view `RDREG` returns (R64). -/
def State.view (s : State) : RegView → Word
  | .status => s.statusWord
  | .poly => s.poly
  | .init => s.init
  | .xorout => s.xorout

/-- The host takes the response word if one is held (R25); with none held nothing is transferred (R24). -/
def State.takeResponse (s : State) : State :=
  match s.rsp with
  | none => s
  | some v => { s with rsp := none, taken := s.taken ++ [v] }

/-- The reset event (R130): every register at its reset value, a response not yet taken discarded. What the host does next,
what it has taken and the configuration are not the block's and stay. -/
def State.resetEvent (s : State) : State :=
  { State.reset with input := s.input, taken := s.taken, cfg := s.cfg }

/-- What the ports ask of the block. -/
inductive PortAction where
  /-- The command word is accepted; the state is the one in which it runs. -/
  | run (w : CmdWord) (s : State)
  /-- No command: the state after the event, or the same state when the host does nothing. -/
  | settle (s : State)
  /-- A command is offered while a response is held: the block does not accept it (R25). -/
  | stalled
  deriving DecidableEq, Repr

/-- The next thing at the ports (R24, R25, R130). An idle block holds its state (`60_exceptions.md` R121). -/
def State.nextAction (s : State) : PortAction :=
  match s.input with
  | [] => .settle s
  | .reset :: rest => .settle ({ s with input := rest } : State).resetEvent
  | .takeResponse :: rest => .settle ({ s with input := rest } : State).takeResponse
  | .command w :: rest =>
    match s.rsp with
    | none => .run w { s with input := rest }
    | some _ => .stalled

/-- The same state, with the host's next event a command word that the block is ready to accept. -/
def State.offer (s : State) (w : CmdWord) : State :=
  { s.takeResponse with input := .command w :: s.input }

end Sys2Proof.Machine
end

