-- ==== Sys2Proof/Machine/BitSerial.lean ====
section
/-! DEFINITION. The reference engine: `INIT`, `UPDS`, `RDCRC` (`41_reference_bitserial.md` R72, R73, R75). -/

namespace Sys2Proof.Machine

/-- `INIT` (R72): `low(INIT)` to the remainder, unreflected whatever the flags (decision D23). -/
def execInit (s : State) : Result := s.onWidth (fun w => s.setRem (low w s.init))

/-- `UPDS` (R73): one byte through the bit-serial engine; the table is neither read nor written. -/
def execUpds (byte : Byte) (s : State) : Result := s.onWidth (fun w => s.setRem (s.serialStep w byte))

/-- `RDCRC` (R75): one response word, with no width selected too: then 0, beside `E_NOSEL` (`10_state.md` R25). -/
def execRdcrc (s : State) : Result :=
  match s.width with
  | none => .next ((s.flagError .noSel).respond 0#32)
  | some w => .next (s.respond (zext32 (s.crc w)))

end Sys2Proof.Machine
end

