-- ==== Sys2Proof/Machine/Descriptor.lean ====
section
/-! DEFINITION. The descriptor commands `WRCTL`, `WRPOLY`, `WRINIT`, `WRXOR`, `RDREG` (`40_descriptor.md` R60 to R64). -/

namespace Sys2Proof.Machine

/-- `WRCTL` (R60): the three fields of `CTRL`, and `TV` cleared always. -/
def execWrctl (wsel : WidthSel) (refin refout : Bool) (s : State) : Result :=
  .next (s.setCtrl { wsel := wsel, refin := refin, refout := refout }).invalidateTable

/-- `WRPOLY` (R61): `POLY`, all 32 bits, and `TV` cleared always. -/
def execWrpoly (value : Word) (s : State) : Result := .next (s.setPoly value).invalidateTable

/-- `WRINIT` (R62): the `INIT` register alone; `TV` and `REM` stay. -/
def execWrinit (value : Word) (s : State) : Result := .next (s.setInit value)

/-- `WRXOR` (R63): `XOROUT` alone; `TV` and `REM` stay. -/
def execWrxor (value : Word) (s : State) : Result := .next (s.setXorout value)

/-- `RDREG` (R64): one response word, no side effect (`20_memory.md` R36). -/
def execRdreg (sel : RegView) (s : State) : Result := .next (s.respond (s.view sel))

end Sys2Proof.Machine
end

