-- ==== Sys2Proof/Machine/Reserved.lean ====
section
/-! DEFINITION. The four reserved opcodes: `flag_error(E_ILLOP)` and nothing else (`60_exceptions.md` R112,
`30_encoding.md` R50). -/

namespace Sys2Proof.Machine

/-- Opcode 0x0 (R112). -/
def execReserved0 (s : State) : Result := .next (s.flagError .illOp)

/-- Opcode 0xD (R112). -/
def execReservedD (s : State) : Result := .next (s.flagError .illOp)

/-- Opcode 0xE (R112). -/
def execReservedE (s : State) : Result := .next (s.flagError .illOp)

/-- Opcode 0xF (R112). -/
def execReservedF (s : State) : Result := .next (s.flagError .illOp)

end Sys2Proof.Machine
end

