-- ==== Sys2Proof/Machine/TableEngine.lean ====
section
/-! DEFINITION. The table generator `TGEN` (`42_table_generator.md` R81) and the table engine `UPDT`
(`43_table_computation.md` R86). -/

namespace Sys2Proof.Machine

/-- `TGEN` (R81): build the table unconditionally. -/
def execTgen (s : State) : Result := s.onWidth (fun w => s.buildTable w)

/-- `UPDT` (R86): the lazy build if the table is not valid, then one byte through the table, in one command. -/
def execUpdt (byte : Byte) (s : State) : Result :=
  s.onWidth (fun w => (s.ensureTable w).setRem ((s.ensureTable w).tableStep w byte))

end Sys2Proof.Machine
end

