-- ==== Sys2Proof/Machine/Presets.lean ====
section
/-! DEFINITION. The preset ROM (`44_standard_variants.md` R90, R92 to R97): a constant of the configuration. -/

namespace Sys2Proof.Machine

/-- The row of an id; none for the reserved ids 6 to 255 (R90). Row 0 is the parameter `CRC8_DESC` (R92), any descriptor
(DESIGN CHOICE, log entry 2): with one that selects no width, `SELP` of 0 leaves no width selected. -/
def presetRow (cfg : Config) (id : Byte) : Option Descriptor :=
  match id.toNat with
  | 0 => some cfg.crc8
  | 1 => some { wsel := .w8,  poly := 0x000000D5#32, init := 0x00000000#32, refin := false, refout := false, xorout := 0x00000000#32 }
  | 2 => some { wsel := .w16, poly := 0x00001021#32, init := 0x00000000#32, refin := false, refout := false, xorout := 0x00000000#32 }
  | 3 => some { wsel := .w16, poly := 0x00008005#32, init := 0x00000000#32, refin := true,  refout := true,  xorout := 0x00000000#32 }
  | 4 => some { wsel := .w16, poly := 0x00008005#32, init := 0x0000FFFF#32, refin := true,  refout := true,  xorout := 0x00000000#32 }
  | 5 => some { wsel := .w32, poly := 0x04C11DB7#32, init := 0xFFFFFFFF#32, refin := true,  refout := true,  xorout := 0xFFFFFFFF#32 }
  | _ => none

end Sys2Proof.Machine
end

