-- ==== Sys2Proof/Machine/Variants.lean ====
section
/-! DEFINITION. The standard variants: `SELP` (`44_standard_variants.md` R91) and `SEED` (R99). -/

namespace Sys2Proof.Machine

/-- `SELP` (R91): a reserved id raises `E_PRESET` with no other effect; else the row's descriptor, and `TV` cleared. -/
def execSelp (id : Byte) (s : State) : Result :=
  match presetRow s.cfg id with
  | none => .next (s.flagError .preset)
  | some d => .next (s.loadDescriptor d).invalidateTable

/-- `SEED` (R99): the remainder a previous `RDCRC` value was made from. -/
def execSeed (value : Word) (s : State) : Result := s.onWidth (fun w => s.setRem (s.seedRem w value))

end Sys2Proof.Machine
end

