-- ==== Sys2Proof/Machine/Dispatch.lean ====
section
/-! DEFINITION. One arm per command: the meaning of an instruction. -/

namespace Sys2Proof.Machine

def exec (i : Instr) (s : State) : Host.Outcome State Fault Refusal :=
  match i with
  | .wrctl wsel refin refout => Sys2Proof.Machine.execWrctl wsel refin refout s
  | .wrpoly value => Sys2Proof.Machine.execWrpoly value s
  | .wrinit value => Sys2Proof.Machine.execWrinit value s
  | .wrxor value => Sys2Proof.Machine.execWrxor value s
  | .selp id => Sys2Proof.Machine.execSelp id s
  | .rdreg sel => Sys2Proof.Machine.execRdreg sel s
  | .init => Sys2Proof.Machine.execInit s
  | .seed value => Sys2Proof.Machine.execSeed value s
  | .upds byte => Sys2Proof.Machine.execUpds byte s
  | .updt byte => Sys2Proof.Machine.execUpdt byte s
  | .tgen => Sys2Proof.Machine.execTgen s
  | .rdcrc => Sys2Proof.Machine.execRdcrc s
  | .reserved0 => Sys2Proof.Machine.execReserved0 s
  | .reservedD => Sys2Proof.Machine.execReservedD s
  | .reservedE => Sys2Proof.Machine.execReservedE s
  | .reservedF => Sys2Proof.Machine.execReservedF s

end Sys2Proof.Machine
end

