-- ==== Sys2Proof/Machine/Step.lean ====
section
/-! DEFINITION. One step (`00_scope.md` R9): the next event at the ports; a command that is accepted runs whole. -/

namespace Sys2Proof.Machine

/-- One step. A command is consumed and performed completely before the next is looked at (R9, R38); a command offered
while a response is held is not accepted and the block waits (R25, R139); the other events and an idle block run nothing. -/
def step (s : State) : Host.Outcome State Fault Refusal :=
  match s.nextAction with
  | .run w t => exec (decode w) t
  | .settle t => .next t
  | .stalled => .fault .responseNotTaken

/-- The state whose next step runs the command of word `w`: the word is the host's next event. A word wider than 36 bits is
no command word; only its low 36 bits are offered. -/
def State.withFetchWord (s : State) (nbits w : Nat) : State := s.offer (BitVec.ofNat 36 (w % 2 ^ nbits))

end Sys2Proof.Machine
end

