-- ==== Sys2Proof/Machine/Library.lean ====
section
/-! DEFINITION. The host's side of the spec: the pseudo-commands (`30_encoding.md` R55), the source's functions as command
sequences (`44_standard_variants.md` R101, R102), the host's events that send a sequence and take its responses
(`10_state.md` R24, R25), and the byte order of a result in a frame (`20_memory.md` R33). -/

namespace Sys2Proof.Machine

/-- Which engine carries a byte: `UPDS` ("slow") or `UPDT` ("fast") (`43_table_computation.md` R89). -/
inductive Engine where
  | serial
  | table
  deriving DecidableEq, Repr

/-- The update command of an engine. -/
def update (e : Engine) (b : Byte) : Instr :=
  match e with
  | .serial => .upds b
  | .table => .updt b

/-- `MSGS` or `MSGT`: one update command per byte, in ascending order (R31, R55). -/
def msg (e : Engine) (m : List Byte) : List Instr := m.map (update e)

/-- The preset names and their ids (R54, R90). -/
inductive PresetName where
  | crc8
  | crc8Dvbs2
  | crc16Ccitt
  | crc16Arc
  | crc16Modbus
  | crc32
  deriving DecidableEq, Repr

/-- The id of a preset name (R54). -/
def presetId : PresetName → Byte
  | .crc8 => 0#8
  | .crc8Dvbs2 => 1#8
  | .crc16Ccitt => 2#8
  | .crc16Arc => 3#8
  | .crc16Modbus => 4#8
  | .crc32 => 5#8

/-- The source's generic build selection (R102). -/
inductive GenericWidth where
  | crcCcitt
  | crc16
  | crc32
  deriving DecidableEq, Repr

/-- The preset each generic build name is mapped to (R102). -/
def genericPreset : GenericWidth → PresetName
  | .crcCcitt => .crc16Ccitt
  | .crc16 => .crc16Arc
  | .crc32 => .crc32

/-- The source's public functions that CRCGEN serves, with their arguments (R101). -/
inductive LibCall where
  | crcInit
  | crcSlow (buffer : List Byte)
  | crcFast (buffer : List Byte)
  | crc8 (buffer : List Byte)
  | crc8DvbS2 (crc : Byte) (byte : Byte)
  | crc8DvbS2Update (crc : Byte) (buffer : List Byte)
  | crc16ArcCalculate (buffer : List Byte)
  | crc16ArcUpdate (buffer : List Byte)
  | crc16ArcFast (crc : BitVec 16) (buffer : List Byte)
  | crcCcit16Init
  | crcCcit16Fast (buffer : List Byte)
  | usMBCRC16 (buffer : List Byte)
  | computeHashtableFast32
  deriving DecidableEq, Repr

/-- A whole message by an engine: `INIT`, the updates, `RDCRC` (R101, `70_reset_and_hazards.md` R131). -/
def wholeMessage (e : Engine) (m : List Byte) : List Instr := .init :: (msg e m ++ [.rdcrc])

/-- A running computation from a previous accumulator value: `SEED`, the updates, `RDCRC` (R99, R101). -/
def resumedMessage (e : Engine) (v : Word) (m : List Byte) : List Instr := .seed v :: (msg e m ++ [.rdcrc])

/-- The command sequence of each function (R101). `e` is the engine where the table says "either". -/
def LibCall.commands (e : Engine) : LibCall → List Instr
  | .crcInit => [.tgen]
  | .crcSlow m => wholeMessage .serial m
  | .crcFast m => wholeMessage .table m
  | .crc8 m => .selp (presetId .crc8) :: wholeMessage e m
  | .crc8DvbS2 c b => .selp (presetId .crc8Dvbs2) :: resumedMessage e (c.setWidth 32) [b]
  | .crc8DvbS2Update c m => .selp (presetId .crc8Dvbs2) :: resumedMessage e (c.setWidth 32) m
  | .crc16ArcCalculate m => .selp (presetId .crc16Arc) :: wholeMessage .serial m
  | .crc16ArcUpdate m => .selp (presetId .crc16Arc) :: wholeMessage e m
  | .crc16ArcFast c m => .selp (presetId .crc16Arc) :: resumedMessage .table (c.setWidth 32) m
  | .crcCcit16Init => [.selp (presetId .crc16Ccitt), .tgen]
  | .crcCcit16Fast m => .selp (presetId .crc16Ccitt) :: wholeMessage .table m
  | .usMBCRC16 m => .selp (presetId .crc16Modbus) :: wholeMessage e m
  | .computeHashtableFast32 => [.selp (presetId .crc32), .tgen]

/-- The command produces a response word (R47 column "Response", R25). -/
def isRead : Instr → Bool
  | .rdreg _ => true
  | .rdcrc => true
  | .wrctl _ _ _ => false
  | .wrpoly _ => false
  | .wrinit _ => false
  | .wrxor _ => false
  | .selp _ => false
  | .init => false
  | .seed _ => false
  | .upds _ => false
  | .updt _ => false
  | .tgen => false
  | .reserved0 => false
  | .reservedD => false
  | .reservedE => false
  | .reservedF => false

/-- What a host does that sends the commands in order and takes every response (R24, R139). -/
def sendAll : List Instr → List HostEvent
  | [] => []
  | i :: rest =>
    if isRead i then .command (encode i) :: .takeResponse :: sendAll rest else .command (encode i) :: sendAll rest

/-- The bytes of a CRC in a frame, low byte first, `n` of them (R33: Modbus "low byte first"). -/
def bytesLowFirst : Nat → Word → List Byte
  | 0, _ => []
  | n + 1, v => v.setWidth 8 :: bytesLowFirst n (v >>> 8)

/-- The bytes of a CRC, high byte first. -/
def bytesHighFirst (n : Nat) (v : Word) : List Byte := (bytesLowFirst n v).reverse

end Sys2Proof.Machine
end

