-- ==== Sys2Proof/Machine/Assembly.lean ====
section
/-! DEFINITION. The assembler notation of `30_encoding.md` R54 and the pseudo-commands of R55: from the text of one line to a
line, and from a line to commands. It is notation (decision D26): the machine does not read it. What R54 and R55 leave open of it is
DESIGN CHOICE (log entry 8). -/

namespace Sys2Proof.Machine

/-- A piece of a line: a word, or the characters between two double quotes. -/
inductive Token where
  | word (chars : List Char)
  | text (chars : List Char)
  deriving DecidableEq, Repr

/-- Why a line is rejected. -/
inductive AsmError where
  /-- The mnemonic and its operands are no line of R54 or R55. -/
  | notALine
  /-- A number does not fit its operand (R54). -/
  | outOfRange
  deriving DecidableEq, Repr

/-- The characters that stand between words: blank, tab and the comma of R54, any number of them in any order (DESIGN CHOICE, log
entry 8). -/
def isSeparator (c : Char) : Bool := c == ' ' || c == Char.ofNat 9 || c == ','

/-- Close the word read so far, if any. -/
def closeWord (cur : List Char) (rest : List Token) : List Token :=
  if cur.isEmpty then rest else .word cur.reverse :: rest

/-- Split a line into tokens; a comment runs from `;` to the end of the line (R54). `cur` is the token being read, last
character first, and `quoted` says that it is inside double quotes.
DESIGN CHOICE (log entry 8): a `;` inside double quotes is a character of the string (R55) and begins no comment; a double quote
outside a string begins one wherever it stands and ends the word before it, with no blank needed, and the closing quote ends the
string, with no blank needed after it; an unclosed string ends with the line. -/
def tokens : List Char → (cur : List Char) → (quoted : Bool) → List Token
  | [], cur, quoted => if quoted then [.text cur.reverse] else closeWord cur []
  | c :: rest, cur, true => if c == Char.ofNat 34 then .text cur.reverse :: tokens rest [] false else tokens rest (c :: cur) true
  | c :: rest, cur, false =>
    if c == ';' then closeWord cur []
    else if c == Char.ofNat 34 then closeWord cur (tokens rest [] true)
    else if isSeparator c then closeWord cur (tokens rest [] false)
    else tokens rest (c :: cur) false

/-- The value of a digit character below `base`. -/
def digit (base : Nat) (c : Char) : Option Nat :=
  let n := c.toNat
  let v := if 48 ≤ n ∧ n ≤ 57 then n - 48 else if 65 ≤ n ∧ n ≤ 70 then n - 55 else if 97 ≤ n ∧ n ≤ 102 then n - 87 else base
  if v < base then some v else none

/-- The number of a digit string. -/
def digits (base : Nat) : List Char → (sofar : Nat) → Option Nat
  | [], n => some n
  | c :: cs, n => (digit base c).bind (fun d => digits base cs (n * base + d))

/-- A number, decimal or `0x` hexadecimal (R54). -/
def number : List Char → Option Nat
  | [] => none
  | ['0', 'x'] => none
  | '0' :: 'x' :: cs => digits 16 cs 0
  | cs => digits 10 cs 0

/-- The number in `key=<number>` (R54, `WRCTL`). -/
def keyed (key : List Char) (cs : List Char) : Option Nat :=
  if cs.take (key.length + 1) == key ++ ['='] then number (cs.drop (key.length + 1)) else none

/-- A preset by name, else by number (R54). -/
def presetOperand (cs : List Char) : Option Nat :=
  match String.ofList cs with
  | "CRC8" => some 0
  | "CRC8_DVBS2" => some 1
  | "CRC16_CCITT" => some 2
  | "CRC16_ARC" => some 3
  | "CRC16_MODBUS" => some 4
  | "CRC32" => some 5
  | _ => number cs

/-- A read view by name, else by number (R54). -/
def viewOperand (cs : List Char) : Option Nat :=
  match String.ofList cs with
  | "STATUS" => some 0
  | "POLY" => some 1
  | "INIT" => some 2
  | "XOROUT" => some 3
  | _ => number cs

/-- The numbers of a list of words; none where a token is no number. -/
def byteNumbers : List Token → Option (List Nat)
  | [] => some []
  | .word cs :: rest => (number cs).bind (fun n => (byteNumbers rest).map (fun ns => n :: ns))
  | .text _ :: _ => none

/-- The bytes of a pseudo-command, in R55's two forms: numbers, or the ASCII codes of one string. DESIGN CHOICE (log entry 8): a
string stands alone, and a line that has it beside a number or another string is rejected; so is a character that is not ASCII. -/
def byteOperands : List Token → Option (List Nat)
  | [.text cs] => if cs.all (fun c => decide (c.toNat < 128)) then some (cs.map Char.toNat) else none
  | ops => byteNumbers ops

/-- The line a list of tokens is; none where R54 and R55 have no such line. -/
def lineOf : List Token → Option AsmLine
  | .word m :: ops =>
    match String.ofList m, ops with
    | "WRCTL", [.word a, .word b, .word c] =>
      (keyed ['w'] a).bind fun w => (keyed "refin".toList b).bind fun ri => (keyed "refout".toList c).map fun ro => .wrctl w ri ro
    | "WRPOLY", [.word a] => (number a).map .wrpoly
    | "WRINIT", [.word a] => (number a).map .wrinit
    | "WRXOR", [.word a] => (number a).map .wrxor
    | "SELP", [.word a] => (presetOperand a).map .selp
    | "RDREG", [.word a] => (viewOperand a).map .rdreg
    | "INIT", [] => some .init
    | "SEED", [.word a] => (number a).map .seed
    | "UPDS", [.word a] => (number a).map .upds
    | "UPDT", [.word a] => (number a).map .updt
    | "TGEN", [] => some .tgen
    | "RDCRC", [] => some .rdcrc
    | "MSGS", ops => (byteOperands ops).map .msgs
    | "MSGT", ops => (byteOperands ops).map .msgt
    | _, _ => none
  | _ => none

/-- The width selection written `w=<0|8|16|32>` (R54). -/
def wselOfWidth (w : Nat) : WidthSel :=
  if w = 8 then .w8 else if w = 16 then .w16 else if w = 32 then .w32 else .unselected

/-- The commands a well-formed line stands for (R54); a pseudo-command is one update command per byte (R55). -/
def expand : AsmLine → List Instr
  | .wrctl w refin refout => [.wrctl (wselOfWidth w) (refin == 1) (refout == 1)]
  | .wrpoly v => [.wrpoly (.ofNat 32 v)]
  | .wrinit v => [.wrinit (.ofNat 32 v)]
  | .wrxor v => [.wrxor (.ofNat 32 v)]
  | .selp id => [.selp (.ofNat 8 id)]
  | .rdreg sel => [.rdreg (viewOfBits (.ofNat 2 sel))]
  | .init => [.init]
  | .seed v => [.seed (.ofNat 32 v)]
  | .upds b => [.upds (.ofNat 8 b)]
  | .updt b => [.updt (.ofNat 8 b)]
  | .tgen => [.tgen]
  | .rdcrc => [.rdcrc]
  | .msgs bs => msg .serial (bs.map (.ofNat 8))
  | .msgt bs => msg .table (bs.map (.ofNat 8))

/-- The commands of a line, rejected by name when a number does not fit its operand (R54). -/
def assemble (l : AsmLine) : Except AsmError (List Instr) :=
  if l.wellFormed then .ok (expand l) else .error .outOfRange

/-- The commands of the text of one line. An empty line, or one that is only a comment, is no command. -/
def assembleText (cs : List Char) : Except AsmError (List Instr) :=
  match tokens cs [] false with
  | [] => .ok []
  | ts =>
    match lineOf ts with
    | none => .error .notALine
    | some l => assemble l

end Sys2Proof.Machine
end

