-- ==== Sys2Proof/Safety.lean ====
section
/-! DEFINITION. The terms claims are stated in: the invariant of the machine, a clean state, and the running of a sequence
of commands. -/

namespace Sys2Proof.Machine

/-- R40's invariant: whenever `TV = 1` every entry of `TBL` is the generated one for the current `W` and `POLY`. That a width is
selected then is DEDUCED: R40 presupposes it (log entry 13). -/
def State.tableCoherent (s : State) : Prop :=
  s.tv = true → ∃ w, s.width = some w ∧ ∀ i : Byte, s.entry i = zext32 (tblgen w (low w s.poly) i)

/-- `ERR` and `ECODE` agree: `ERR = 0` exactly when `ECODE = 0`. DEDUCED from the meaning of code 0 in R18 and from R111 (log
entry 13). -/
def State.errorRecordAgrees (s : State) : Prop := s.err = false ↔ s.ecode = .noError

/-- The invariant of the machine. -/
def State.Inv (s : State) : Prop := s.tableCoherent ∧ s.errorRecordAgrees

/-- No error since reset: "a state with `ERR = 1` is not a good final state" (`60_exceptions.md` R118). -/
def State.clean (s : State) : Bool := !s.err

/-- What `flag_error(c)` leaves, written out field by field (R111): `ERR` set, `ECODE` the first error's. -/
def State.flagged (s : State) (c : ErrCode) : State :=
  { s with err := true, ecode := if s.err then s.ecode else c }

/-- The six data-path commands, which need a width (`60_exceptions.md` R113). -/
def isDataPath : Instr → Bool
  | .init => true
  | .seed _ => true
  | .upds _ => true
  | .updt _ => true
  | .tgen => true
  | .rdcrc => true
  | .wrctl _ _ _ => false
  | .wrpoly _ => false
  | .wrinit _ => false
  | .wrxor _ => false
  | .selp _ => false
  | .rdreg _ => false
  | .reserved0 => false
  | .reservedD => false
  | .reservedE => false
  | .reservedF => false

/-- The update commands of a message whose bytes are carried by the engines given (`43_table_computation.md` R89). -/
def updates (m : List (Engine × Byte)) : List Instr := m.map (fun x => update x.1 x.2)

/-- The CRC of a message under the descriptor in the state, at its width `w`, as a response word (R76, R53). -/
def State.crcOf (s : State) (w : Nat) (m : List Byte) : Word :=
  zext32 (crcRef m (low w s.poly) (low w s.init) s.ctrl.refin s.ctrl.refout (low w s.xorout))

/-- Run a sequence of commands, the host taking every response as it comes (R9, R25). It stops where a meaning stops. -/
def execAll : List Instr → State → Result
  | [], s => .next s
  | i :: rest, s =>
    match exec i s with
    | .next t => execAll rest t.takeResponse
    | .fault f => .fault f
    | .refused r => .refused r

/-- `t` can be reached from `s` by steps. -/
inductive Reaches : State → State → Prop where
  | refl (s : State) : Reaches s s
  | tail {s t u : State} (h : Reaches s t) (e : step t = .next u) : Reaches s u

end Sys2Proof.Machine
end

