-- ==== Sys2Proof/Certificates/Slice0/Obligations.lean ====
section
/-! DEFINITION. The statements for the provers. Each formalises rules of `spec/`, named in its docstring; nothing is proved
here. "`exec i s = .next t`" says that the command completes, and a `t` written as `{ s with … }` says that every other field of
the state is unchanged. -/

open Sys2Proof Sys2Proof.Machine

/-! ## Encoding -/

/-- Decode and encode agree for every command and every operand (R46, R48, R49): no bit of an operand is dropped. -/
def Obligations.DecodeOfEncodeIsTheCommand : Prop := ∀ i : Instr, decode (encode i) = i

/-- R51 and R46: a word whose reserved bits are zero, as an assembler writes them, is the encoding of what it decodes to. -/
def Obligations.EncodeOfDecodeIsTheAssemblerWord : Prop :=
  ∀ w : CmdWord, reservedBitsZero w = true → encode (decode w) = w

/-- R51: bits of `arg` that the command's format does not use are ignored: two words with the same `op` that agree on the used
bits of `arg` decode to the same command. -/
def Obligations.ReservedArgumentBitsAreIgnored : Prop :=
  ∀ v w : CmdWord, v.extractLsb' 32 4 = w.extractLsb' 32 4 →
    v.extractLsb' 0 32 &&& usedArg (decode v) = w.extractLsb' 0 32 &&& usedArg (decode v) → decode v = decode w

/-- R46, R50: every word is of exactly one row of the opcode table, and it decodes to that row's command. -/
def Obligations.EveryWordIsOfItsTableRowOnly : Prop :=
  ∀ w : CmdWord, (opcodeTable.filter (fun r => ofRow r w)).map OpRow.mnemonic = [mnemonic (decode w)]

/-- R47, R48: what each opcode decodes to, with every operand read from the bits of `arg` its format names, as numbers. -/
def Obligations.OpcodesAndFieldsAreRead : Prop :=
  ∀ arg : Word,
    (∃ ws, decode (0x1#4 ++ arg) = .wrctl ws (arg.getLsbD 2) (arg.getLsbD 3) ∧
      (arg.toNat % 4 = 0 → ws = .unselected) ∧ (arg.toNat % 4 = 1 → ws = .w8) ∧
      (arg.toNat % 4 = 2 → ws = .w16) ∧ (arg.toNat % 4 = 3 → ws = .w32)) ∧
    decode (0x2#4 ++ arg) = .wrpoly arg ∧
    decode (0x3#4 ++ arg) = .wrinit arg ∧
    decode (0x4#4 ++ arg) = .wrxor arg ∧
    (∃ id, decode (0x5#4 ++ arg) = .selp id ∧ id.toNat = arg.toNat % 256) ∧
    (∃ sel, decode (0x6#4 ++ arg) = .rdreg sel ∧
      (arg.toNat % 4 = 0 → sel = .status) ∧ (arg.toNat % 4 = 1 → sel = .poly) ∧
      (arg.toNat % 4 = 2 → sel = .init) ∧ (arg.toNat % 4 = 3 → sel = .xorout)) ∧
    decode (0x7#4 ++ arg) = .init ∧
    decode (0x8#4 ++ arg) = .seed arg ∧
    (∃ b, decode (0x9#4 ++ arg) = .upds b ∧ b.toNat = arg.toNat % 256) ∧
    (∃ b, decode (0xA#4 ++ arg) = .updt b ∧ b.toNat = arg.toNat % 256) ∧
    decode (0xB#4 ++ arg) = .tgen ∧
    decode (0xC#4 ++ arg) = .rdcrc ∧
    decode (0x0#4 ++ arg) = .reserved0 ∧
    decode (0xD#4 ++ arg) = .reservedD ∧
    decode (0xE#4 ++ arg) = .reservedE ∧
    decode (0xF#4 ++ arg) = .reservedF

/-- R56: the worked encodings, in both directions. -/
def Obligations.WorkedEncodings : Prop :=
  encode (.wrctl .w16 true true) = 0x10000000E#36 ∧ decode 0x10000000E#36 = .wrctl .w16 true true ∧
  encode (.wrctl .w8 false false) = 0x100000001#36 ∧ decode 0x100000001#36 = .wrctl .w8 false false ∧
  encode (.wrctl .w32 true true) = 0x10000000F#36 ∧ decode 0x10000000F#36 = .wrctl .w32 true true ∧
  encode (.wrpoly 0x8005#32) = 0x200008005#36 ∧ decode 0x200008005#36 = .wrpoly 0x8005#32 ∧
  encode (.wrinit 0xFFFF#32) = 0x30000FFFF#36 ∧ decode 0x30000FFFF#36 = .wrinit 0xFFFF#32 ∧
  encode (.wrxor 0xFFFFFFFF#32) = 0x4FFFFFFFF#36 ∧ decode 0x4FFFFFFFF#36 = .wrxor 0xFFFFFFFF#32 ∧
  encode (.selp (presetId .crc16Modbus)) = 0x500000004#36 ∧ decode 0x500000004#36 = .selp 4#8 ∧
  encode (.rdreg .status) = 0x600000000#36 ∧ decode 0x600000000#36 = .rdreg .status ∧
  encode .init = 0x700000000#36 ∧ decode 0x700000000#36 = .init ∧
  encode (.seed 0xBB3D#32) = 0x80000BB3D#36 ∧ decode 0x80000BB3D#36 = .seed 0xBB3D#32 ∧
  encode (.upds 0x31#8) = 0x900000031#36 ∧ decode 0x900000031#36 = .upds 0x31#8 ∧
  encode (.updt 0x31#8) = 0xA00000031#36 ∧ decode 0xA00000031#36 = .updt 0x31#8 ∧
  encode .tgen = 0xB00000000#36 ∧ decode 0xB00000000#36 = .tgen ∧
  encode .rdcrc = 0xC00000000#36 ∧ decode 0xC00000000#36 = .rdcrc ∧
  decode 0x000000000#36 = .reserved0 ∧ decode 0xD00000000#36 = .reservedD ∧
  decode 0xE12345678#36 = .reservedE ∧ decode 0xFFFFFFFFF#36 = .reservedF

/-- R54, R55: which commands each line stands for, with every number of its range: each of the twelve one-command lines, and `MSGS`
and `MSGT` as one update command per byte in ascending order (R31); no assembled word has a reserved bit set (R51). R54 gives the
ranges only: that a line with a number out of its range is rejected by name, and its number never truncated, is the model's choice
(log entry 8). -/
def Obligations.AssembledLinesAreCleanCommands : Prop :=
  (∀ l : AsmLine, l.wellFormed = false → assemble l = .error .outOfRange) ∧
  (∀ l : AsmLine, l.wellFormed = true → ∃ is, assemble l = .ok is ∧
    ∀ i ∈ is, i.wellFormed = true ∧ reservedBitsZero (encode i) = true) ∧
  (∀ (ws : WidthSel) (refin refout : Bool),
    assemble (.wrctl (match ws with | .unselected => 0 | .w8 => 8 | .w16 => 16 | .w32 => 32) refin.toNat refout.toNat) =
      .ok [.wrctl ws refin refout]) ∧
  (∀ v : Word, assemble (.wrpoly v.toNat) = .ok [.wrpoly v] ∧ assemble (.wrinit v.toNat) = .ok [.wrinit v] ∧
    assemble (.wrxor v.toNat) = .ok [.wrxor v] ∧ assemble (.seed v.toNat) = .ok [.seed v]) ∧
  (∀ b : Byte, assemble (.selp b.toNat) = .ok [.selp b] ∧ assemble (.upds b.toNat) = .ok [.upds b] ∧
    assemble (.updt b.toNat) = .ok [.updt b]) ∧
  (assemble (.rdreg 0) = .ok [.rdreg .status] ∧ assemble (.rdreg 1) = .ok [.rdreg .poly] ∧
    assemble (.rdreg 2) = .ok [.rdreg .init] ∧ assemble (.rdreg 3) = .ok [.rdreg .xorout]) ∧
  (assemble .init = .ok [.init] ∧ assemble .tgen = .ok [.tgen] ∧ assemble .rdcrc = .ok [.rdcrc]) ∧
  (∀ bs : List Byte, assemble (.msgs (bs.map BitVec.toNat)) = .ok (bs.map Instr.upds)) ∧
  (∀ bs : List Byte, assemble (.msgt (bs.map BitVec.toNat)) = .ok (bs.map Instr.updt))

/-! ## Pure functions of the data path -/

/-- R6: the width of each selection, and `low` and `zext_32` as numbers. -/
def Obligations.WidthAndTruncation : Prop :=
  (∀ c : BitVec 2, widthOf (wselOfBits c) =
    if c.toNat = 1 then some 8 else if c.toNat = 2 then some 16 else if c.toNat = 3 then some 32 else none) ∧
  (∀ (w : Nat) (v : Word), (low w v).toNat = v.toNat % 2 ^ w) ∧
  (∀ (w : Nat) (v : BitVec w), w ≤ 32 → (zext32 v).toNat = v.toNat)

/-- R7: reflection reverses the bit order, is its own inverse and is linear over xor; with the rule's examples. -/
def Obligations.ReflectionReversesTheBits : Prop :=
  (∀ (n : Nat) (v : BitVec n) (i : Nat), i < n → (reflect v).getLsbD i = v.getLsbD (n - 1 - i)) ∧
  (∀ (n : Nat) (v : BitVec n), reflect (reflect v) = v) ∧
  (∀ (n : Nat) (a b : BitVec n), reflect (a ^^^ b) = reflect a ^^^ reflect b) ∧
  reflect 0x01#8 = 0x80#8 ∧ reflect 0x31#8 = 0x8C#8 ∧ reflect 0x8005#16 = 0xA001#16 ∧
  reflect 0x04C11DB7#32 = 0xEDB88320#32

/-- R70: bit `i` of a bit step is bit `i-1` of `r`, xor bit `i` of `P` when the top bit of `r` (before the shift) is set; the bit
shifted in at the bottom is 0. With the rule's examples. -/
def Obligations.BitStepBitByBit : Prop :=
  (∀ (w : Nat) (r p : BitVec w) (i : Nat), i < w →
    (bitStep r p).getLsbD i = ((decide (0 < i) && r.getLsbD (i - 1)) ^^ (r.getLsbD (w - 1) && p.getLsbD i))) ∧
  bitStep 0x40#8 0x07#8 = 0x80#8 ∧ bitStep 0x80#8 0x07#8 = 0x07#8 ∧ bitStep 0xC4#8 0x07#8 = 0x8F#8 ∧
  bitStep 0x8C00#16 0x8005#16 = 0x9805#16

/-- R71: the byte meets bits `W-1 .. W-8` of the remainder, reflected first when `refin` is set, and eight bit steps follow;
with the last column of the rule's traces. -/
def Obligations.SerialByteIsEightBitSteps : Prop :=
  (∀ (w : Nat) (r r0 p : BitVec w) (b : Byte) (refin : Bool), w = 8 ∨ w = 16 ∨ w = 32 →
    (∀ i, i < w → r0.getLsbD i = (r.getLsbD i ^^
      (decide (w - 8 ≤ i) && (if refin then b.getLsbD (7 - (i - (w - 8))) else b.getLsbD (i - (w - 8)))))) →
    byteStepSerial r b p refin =
      bitStep (bitStep (bitStep (bitStep (bitStep (bitStep (bitStep (bitStep r0 p) p) p) p) p) p) p) p) ∧
  byteStepSerial 0x00#8 0x01#8 0x07#8 false = 0x07#8 ∧
  byteStepSerial 0x00#8 0x31#8 0x07#8 false = 0x97#8 ∧
  byteStepSerial 0x00#8 0x01#8 0xD5#8 false = 0xD5#8 ∧
  byteStepSerial 0x0000#16 0x31#8 0x1021#16 false = 0x2672#16 ∧
  byteStepSerial 0x0000#16 0x31#8 0x8005#16 true = 0x832B#16 ∧
  byteStepSerial 0xFFFF#16 0x01#8 0x8005#16 true = 0x7E01#16 ∧
  byteStepSerial 0xFFFFFFFF#32 0x31#8 0x04C11DB7#32 true = 0x1208C43E#32

/-- R77 (a), (b), (c): the byte step is affine in the remainder, a byte acts only through the top eight bits, and zero goes to
zero. -/
def Obligations.SerialByteIsAffine : Prop :=
  ∀ (w : Nat) (r s p : BitVec w) (b : Byte) (refin : Bool), w = 8 ∨ w = 16 ∨ w = 32 →
    byteStepSerial (r ^^^ s) b p refin = byteStepSerial r b p refin ^^^ byteStepSerial s 0#8 p refin ∧
    byteStepSerial r b p refin =
      byteStepSerial (r ^^^ ((if refin then reflect b else b).setWidth w <<< (w - 8))) 0#8 p refin ∧
    byteStepSerial 0#w 0#8 p refin = 0#w

/-- R74: reflect first, then xor; with the rule's examples. -/
def Obligations.FinalizeReflectsThenXors : Prop :=
  (∀ (w : Nat) (r x : BitVec w) (refout : Bool) (i : Nat), i < w →
    (finalize r refout x).getLsbD i = ((if refout then r.getLsbD (w - 1 - i) else r.getLsbD i) ^^ x.getLsbD i)) ∧
  finalize 0xBCDD#16 true 0x0000#16 = 0xBB3D#16 ∧ finalize 0x31C3#16 false 0#16 = 0x31C3#16 ∧
  finalize 0x9B63D02C#32 true 0xFFFFFFFF#32 = 0xCBF43926#32

/-- R98: `unfinalize` xors first, then reflects, and is the inverse of `finalize` both ways; with the rule's examples. -/
def Obligations.UnfinalizeInvertsFinalize : Prop :=
  (∀ (w : Nat) (v x : BitVec w) (refout : Bool) (i : Nat), i < w →
    (unfinalize v refout x).getLsbD i =
      if refout then (v.getLsbD (w - 1 - i) ^^ x.getLsbD (w - 1 - i)) else (v.getLsbD i ^^ x.getLsbD i)) ∧
  (∀ (w : Nat) (r x : BitVec w) (refout : Bool),
    unfinalize (finalize r refout x) refout x = r ∧ finalize (unfinalize r refout x) refout x = r) ∧
  (∀ (w : Nat) (v : BitVec w), unfinalize v false 0#w = v) ∧
  unfinalize 0x14BA#16 true 0#16 = 0x5D28#16 ∧ unfinalize 0x9BE3E0A3#32 true 0xFFFFFFFF#32 = 0x3AF83826#32

/-- R80, R83: entry `i` is byte `i` through the serial engine from a zero remainder, unreflected; entry 0 is 0, entry 1 is `P`,
the table is linear in its index, and `TGEN` builds it from `W` and `low(POLY)` alone, whatever was built in between, so that ARC
and Modbus share a table although `SELP` from one to the other clears `TV`; with the values of R80 at the indices 0, 1, 2, 3, 128,
255. -/
def Obligations.TableEntriesAndTheirLaws : Prop :=
  (∀ (w : Nat) (p : BitVec w), w = 8 ∨ w = 16 ∨ w = 32 →
    (∀ i, tblgen w p i = byteStepSerial 0#w i p false) ∧
    tblgen w p 0#8 = 0#w ∧
    tblgen w p 1#8 = p ∧
    (∀ a b, tblgen w p (a ^^^ b) = tblgen w p a ^^^ tblgen w p b)) ∧
  (∀ (s t : State) (w : Nat), s.width = some w → t.width = some w → low w s.poly = low w t.poly →
    ∃ s' t', exec .tgen s = .next s' ∧ exec .tgen t = .next t' ∧ s'.tbl = t'.tbl) ∧
  (∀ s : State, ∃ a b c d, exec (.selp (presetId .crc16Arc)) s = .next a ∧ exec .tgen a = .next b ∧
    exec (.selp (presetId .crc16Modbus)) b = .next c ∧ c.tv = false ∧ exec .tgen c = .next d ∧ d.tbl = b.tbl) ∧
  [0#8, 1#8, 2#8, 3#8, 128#8, 255#8].map (tblgen 8 0x07#8) = [0x00#8, 0x07#8, 0x0E#8, 0x09#8, 0x89#8, 0xF3#8] ∧
  [0#8, 1#8, 2#8, 3#8, 128#8, 255#8].map (tblgen 8 0xD5#8) = [0x00#8, 0xD5#8, 0x7F#8, 0xAA#8, 0xEF#8, 0xF9#8] ∧
  [0#8, 1#8, 2#8, 3#8, 128#8, 255#8].map (tblgen 16 0x1021#16) =
    [0x0000#16, 0x1021#16, 0x2042#16, 0x3063#16, 0x9188#16, 0x1EF0#16] ∧
  [0#8, 1#8, 2#8, 3#8, 128#8, 255#8].map (tblgen 16 0x8005#16) =
    [0x0000#16, 0x8005#16, 0x800F#16, 0x000A#16, 0x8303#16, 0x0202#16] ∧
  [0#8, 1#8, 2#8, 3#8, 128#8, 255#8].map (tblgen 32 0x04C11DB7#32) =
    [0x00000000#32, 0x04C11DB7#32, 0x09823B6E#32, 0x0D4326D9#32, 0x690CE0EE#32, 0xB1F740B4#32]

/-- R85: the table step bit by bit: the remainder shifted left by eight, xor the entry at (top byte of the remainder xor the
byte, reflected first when `refin` is set). -/
def Obligations.TableByteIsOneLookup : Prop :=
  ∀ (w : Nat) (r : BitVec w) (b idx : Byte) (t : Byte → BitVec w) (refin : Bool) (i : Nat), w = 8 ∨ w = 16 ∨ w = 32 →
    (∀ j, j < 8 → idx.getLsbD j = (r.getLsbD (w - 8 + j) ^^ (if refin then b.getLsbD (7 - j) else b.getLsbD j))) →
    i < w →
    (byteStepTable r b t refin).getLsbD i = ((decide (8 ≤ i) && r.getLsbD (i - 8)) ^^ (t idx).getLsbD i)

/-- R87: the equivalence invariant of the two engines. -/
def Obligations.TableStepEqualsSerialStep : Prop :=
  ∀ (w : Nat) (p r : BitVec w) (b : Byte) (refin : Bool), w = 8 ∨ w = 16 ∨ w = 32 →
    byteStepTable r b (tblgen w p) refin = byteStepSerial r b p refin

/-- R88: the right-shifting form is the bit-reversed image of the left-shifting one, byte by byte by either of its engines,
over a whole message, and at the end; with the rule's entries of the reflected table at 1, 2, 128, 255. -/
def Obligations.MirrorFormIsTheReversedImage : Prop :=
  (∀ (w : Nat) (r p x : BitVec w) (b : Byte) (m : List Byte) (refout : Bool), w = 8 ∨ w = 16 ∨ w = 32 →
    mirrorByteStepSerial (reflect r) b (reflect p) = reflect (byteStepSerial r b p true) ∧
    mirrorByteStepTable (reflect r) b (mirrorTable w p) = reflect (byteStepSerial r b p true) ∧
    mirrorFinalize (m.foldl (fun q c => mirrorByteStepSerial q c (reflect p)) (reflect r)) refout x =
      crcRef m p r true refout x ∧
    mirrorFinalize (m.foldl (fun q c => mirrorByteStepTable q c (mirrorTable w p)) (reflect r)) refout x =
      crcRef m p r true refout x) ∧
  [1#8, 2#8, 128#8, 255#8].map (mirrorTable 16 0x8005#16) = [0xC0C1#16, 0xC181#16, 0xA001#16, 0x4040#16] ∧
  [1#8, 2#8, 128#8, 255#8].map (mirrorTable 32 0x04C11DB7#32) =
    [0x77073096#32, 0xEE0E612C#32, 0xEDB88320#32, 0x2D02EF8D#32]

/-- R12, R70, R77: a bit step is one step of polynomial division over GF(2), in the notation of R12 (bit `i` is the coefficient of
`x^i`, the term `x^W` implicit): the remainder polynomial times `x`, modulo `x^W + P`. -/
def Obligations.BitStepIsPolynomialDivision : Prop :=
  ∀ (w : Nat) (r p : BitVec w) (f g h : Polynomial (ZMod 2)),
    (∀ i, f.coeff i = if r.getLsbD i then 1 else 0) →
    (∀ i, g.coeff i = if p.getLsbD i then 1 else 0) →
    (∀ i, h.coeff i = if (bitStep r p).getLsbD i then 1 else 0) →
    (Polynomial.X * f) %ₘ (Polynomial.X ^ w + g) = h

/-- R71, R76, R77 and the glossary's "checksum computed via polynomial division": after a message of `n` bytes from remainder `r`,
the remainder is `(r(x) x^(8n) + m(x) x^W) mod (x^W + P(x))`, where `m(x)` is the message with its first byte highest and each byte
in the order `refin` says. -/
def Obligations.MessageRemainderIsPolynomialRemainder : Prop :=
  ∀ (w : Nat) (r p : BitVec w) (refin : Bool) (m : List Byte) (f g k h : Polynomial (ZMod 2)), w = 8 ∨ w = 16 ∨ w = 32 →
    (∀ i, f.coeff i = if r.getLsbD i then 1 else 0) →
    (∀ i, g.coeff i = if p.getLsbD i then 1 else 0) →
    (∀ i, k.coeff i = if i < 8 * m.length ∧
      (inputByte refin (m.getD (m.length - 1 - i / 8) 0#8)).getLsbD (i % 8) = true then 1 else 0) →
    (∀ i, h.coeff i = if (remAfter p refin r m).getLsbD i then 1 else 0) →
    (f * Polynomial.X ^ (8 * m.length) + k * Polynomial.X ^ w) %ₘ (Polynomial.X ^ w + g) = h

/-- R33 (offered there as a check on a model): the CRC of a message followed by its own CRC bytes. With no final XOR it is 0,
low byte first for a reflected 16-bit descriptor (Modbus, ARC), high byte first for an unreflected one (CCITT), and for an
unreflected 8-bit one; for CRC-32, low byte first, it is 0x2144DF1C. For every message, polynomial and initial value (for CRC-32,
every message). -/
def Obligations.FrameWithItsOwnCrcHasAConstantCrc : Prop :=
  (∀ (m : List Byte) (p i : BitVec 16),
    crcRef (m ++ bytesLowFirst 2 (zext32 (crcRef m p i true true 0#16))) p i true true 0#16 = 0#16) ∧
  (∀ (m : List Byte) (p i : BitVec 16),
    crcRef (m ++ bytesHighFirst 2 (zext32 (crcRef m p i false false 0#16))) p i false false 0#16 = 0#16) ∧
  (∀ (m : List Byte) (p i : BitVec 8),
    crcRef (m ++ bytesLowFirst 1 (zext32 (crcRef m p i false false 0#8))) p i false false 0#8 = 0#8) ∧
  (∀ m : List Byte,
    crcRef (m ++ bytesLowFirst 4 (crcRef m 0x04C11DB7#32 0xFFFFFFFF#32 true true 0xFFFFFFFF#32))
      0x04C11DB7#32 0xFFFFFFFF#32 true true 0xFFFFFFFF#32 = 0x2144DF1C#32)

/-! ## The commands: what each leaves, and that it leaves everything else alone -/

/-- R60: `WRCTL` writes the three fields of `CTRL` and clears `TV`, in every state, whatever the reserved bits of `arg` are; with
the rule's example. -/
def Obligations.WrctlWritesControlAndClearsTv : Prop :=
  (∀ arg : Word, ∃ ws, decode (0x1#4 ++ arg) = .wrctl ws (arg.getLsbD 2) (arg.getLsbD 3) ∧
    arg.toNat % 4 = (match ws with | .unselected => 0 | .w8 => 1 | .w16 => 2 | .w32 => 3)) ∧
  (∀ (s : State) (ws : WidthSel) (ri ro : Bool),
    exec (.wrctl ws ri ro) s = .next { s with ctrl := { wsel := ws, refin := ri, refout := ro }, tv := false }) ∧
  (∃ t, exec (decode 0x10000000E#36) State.reset = .next t ∧ t.ctrl = { wsel := .w16, refin := true, refout := true } ∧
    t.tv = false ∧ t.statusWord = 0x0000000E#32)

/-- R61: `WRPOLY` writes all 32 bits of `POLY` and clears `TV`, in every state; with `low(POLY) = 0` the remainder is 0 after `W/8`
bytes through the serial engine, whatever they are; with the rule's example. -/
def Obligations.WrpolyWritesPolyAndClearsTv : Prop :=
  (∀ arg : Word, decode (0x2#4 ++ arg) = .wrpoly arg) ∧
  (∀ (s : State) (v : Word), exec (.wrpoly v) s = .next { s with poly := v, tv := false }) ∧
  (∀ (w : Nat) (r : BitVec w) (m : List Byte) (refin : Bool), w = 8 ∨ w = 16 ∨ w = 32 → m.length = w / 8 →
    remAfter 0#w refin r m = 0#w) ∧
  (∃ t, exec (decode 0x200001021#36) State.reset = .next t ∧ t.poly = 0x00001021#32 ∧ t.tv = false)

/-- R62, R63: `WRINIT` writes the `INIT` register alone and `WRXOR` writes `XOROUT` alone, in every state: neither clears `TV` nor
touches `REM`; with the rules' examples. -/
def Obligations.WrinitAndWrxorWriteOneRegister : Prop :=
  (∀ arg : Word, decode (0x3#4 ++ arg) = .wrinit arg ∧ decode (0x4#4 ++ arg) = .wrxor arg) ∧
  (∀ (s : State) (v : Word),
    exec (.wrinit v) s = .next { s with init := v } ∧ exec (.wrxor v) s = .next { s with xorout := v }) ∧
  (∃ t, exec (decode 0x30000FFFF#36) State.reset = .next t ∧ t.init = 0x0000FFFF#32) ∧
  (∃ t, exec (decode 0x4FFFFFFFF#36) State.reset = .next t ∧ t.xorout = 0xFFFFFFFF#32)

/-- R64, R19: `RDREG` answers the selected view in one response word and changes nothing else, in every state; the status word bit
by bit; the three registers whole; with the rule's examples. -/
def Obligations.RdregReadsTheViews : Prop :=
  (∀ arg : Word, ∃ sel, decode (0x6#4 ++ arg) = .rdreg sel ∧
    arg.toNat % 4 = (match sel with | .status => 0 | .poly => 1 | .init => 2 | .xorout => 3)) ∧
  (∀ (s : State) (sel : RegView), ∃ v, exec (.rdreg sel) s = .next { s with rsp := some v } ∧
    (sel = .poly → v = s.poly) ∧ (sel = .init → v = s.init) ∧ (sel = .xorout → v = s.xorout) ∧
    (sel = .status →
      v.toNat % 4 = (match s.ctrl.wsel with | .unselected => 0 | .w8 => 1 | .w16 => 2 | .w32 => 3) ∧
      v.getLsbD 2 = s.ctrl.refin ∧ v.getLsbD 3 = s.ctrl.refout ∧ v.getLsbD 4 = s.tv ∧ v.getLsbD 5 = s.err ∧
      v.toNat / 64 = (match s.ecode with | .noError => 0 | .illOp => 1 | .noSel => 2 | .preset => 3))) ∧
  (∃ t, exec (decode 0x600000000#36) State.reset = .next t ∧ t.rsp = some 0x00000000#32) ∧
  (∃ t, execAll [.selp (presetId .crc16Modbus), .rdreg .status, .rdreg .poly, .rdreg .init, .rdreg .xorout] State.reset = .next t ∧
    t.taken = [0x0000000E#32, 0x00008005#32, 0x0000FFFF#32, 0x00000000#32])

/-- R91, R90: `SELP` of ids 0 to 5 loads the row's six values and clears `TV`, touching nothing else (`REM` in particular); row 0 is
the parameter `CRC8_DESC` of the configuration, with its default. `SELP` of 6 to 255 is `E_PRESET` and changes nothing but the error
flag. With the examples of R91 and, for each row, the "check" of "123456789" and the "empty" of R90. -/
def Obligations.SelpLoadsThePresetRow : Prop :=
  (∀ arg : Word, ∃ id, decode (0x5#4 ++ arg) = .selp id ∧ id.toNat = arg.toNat % 256) ∧
  (∀ (s : State) (id : Byte) (d : Descriptor),
    (id = 0#8 ∧ d = s.cfg.crc8) ∨
    (id = 1#8 ∧ d = ⟨.w8, 0x000000D5#32, 0x00000000#32, false, false, 0x00000000#32⟩) ∨
    (id = 2#8 ∧ d = ⟨.w16, 0x00001021#32, 0x00000000#32, false, false, 0x00000000#32⟩) ∨
    (id = 3#8 ∧ d = ⟨.w16, 0x00008005#32, 0x00000000#32, true, true, 0x00000000#32⟩) ∨
    (id = 4#8 ∧ d = ⟨.w16, 0x00008005#32, 0x0000FFFF#32, true, true, 0x00000000#32⟩) ∨
    (id = 5#8 ∧ d = ⟨.w32, 0x04C11DB7#32, 0xFFFFFFFF#32, true, true, 0xFFFFFFFF#32⟩) →
    exec (.selp id) s = .next { s with
      ctrl := { wsel := d.wsel, refin := d.refin, refout := d.refout }, poly := d.poly, init := d.init, xorout := d.xorout,
      tv := false }) ∧
  (∀ (s : State) (id : Byte), 6 ≤ id.toNat → exec (.selp id) s = .next (s.flagged .preset)) ∧
  (∃ t, exec (decode 0x500000005#36) State.reset = .next t ∧ t.ctrl = { wsel := .w32, refin := true, refout := true } ∧
    t.poly = 0x04C11DB7#32 ∧ t.init = 0xFFFFFFFF#32 ∧ t.xorout = 0xFFFFFFFF#32 ∧ t.tv = false ∧ t.statusWord = 0x0000000F#32) ∧
  Config.crc8Default = ⟨.w8, 0x00000007#32, 0x00000000#32, false, false, 0x00000000#32⟩ ∧
  (∃ m : List Byte, m = [0x31#8, 0x32#8, 0x33#8, 0x34#8, 0x35#8, 0x36#8, 0x37#8, 0x38#8, 0x39#8] ∧
    [m, []].map (fun m => crcRef m 0x07#8 0x00#8 false false 0x00#8) = [0xF4#8, 0x00#8] ∧
    [m, []].map (fun m => crcRef m 0xD5#8 0x00#8 false false 0x00#8) = [0xBC#8, 0x00#8] ∧
    [m, []].map (fun m => crcRef m 0x1021#16 0x0000#16 false false 0x0000#16) = [0x31C3#16, 0x0000#16] ∧
    [m, []].map (fun m => crcRef m 0x8005#16 0x0000#16 true true 0x0000#16) = [0xBB3D#16, 0x0000#16] ∧
    [m, []].map (fun m => crcRef m 0x8005#16 0xFFFF#16 true true 0x0000#16) = [0x4B37#16, 0xFFFF#16] ∧
    [m, []].map (fun m => crcRef m 0x04C11DB7#32 0xFFFFFFFF#32 true true 0xFFFFFFFF#32) = [0xCBF43926#32, 0x00000000#32]) ∧
  (∃ t, exec (decode 0x500000006#36) State.reset = .next t ∧ t.err = true ∧ t.ecode = .preset ∧ t.statusWord = 0x000000E0#32)

/-- R91, R65: `SELP` is equivalent to `WRCTL`, `WRPOLY`, `WRINIT`, `WRXOR` with the row's values, and the four may come in any
order. -/
def Obligations.SelpIsTheFourWritesInAnyOrder : Prop :=
  ∀ (s : State) (id : Byte) (d : Descriptor) (is : List Instr), presetRow s.cfg id = some d → s.rsp = none →
    is.Perm [.wrctl d.wsel d.refin d.refout, .wrpoly d.poly, .wrinit d.init, .wrxor d.xorout] →
    execAll is s = exec (.selp id) s

/-- R72: `INIT` loads the low `W` bits of the `INIT` register, unreflected; `E_NOSEL` with no width; twice is the same as once; with
the rule's example. -/
def Obligations.InitLoadsTheInitialValue : Prop :=
  (∀ arg : Word, decode (0x7#4 ++ arg) = .init) ∧
  (∀ (s : State) (w : Nat), s.width = some w →
    exec .init s = .next { s with rem := zext32 (low w s.init) } ∧
    exec .init { s with rem := zext32 (low w s.init) } = .next { s with rem := zext32 (low w s.init) }) ∧
  (∀ s : State, s.width = none → exec .init s = .next (s.flagged .noSel)) ∧
  (∃ t, execAll [.selp 4#8, decode 0x700000000#36] State.reset = .next t ∧ t.rem = 0x0000FFFF#32)

/-- R99: `SEED` loads `unfinalize` of the low `W` bits of its operand; `E_NOSEL` with no width; `SEED v; RDCRC` answers the low `W`
bits of `v`; `SEED` of the empty message's CRC does what `INIT` does; with the rule's examples. -/
def Obligations.SeedLoadsTheRemainderOfItsCrc : Prop :=
  (∀ arg : Word, decode (0x8#4 ++ arg) = .seed arg) ∧
  (∀ (s : State) (w : Nat) (v : Word), s.width = some w → ∃ t,
    t = { s with rem := zext32 (unfinalize (low w v) s.ctrl.refout (low w s.xorout)) } ∧
    exec (.seed v) s = .next t ∧ exec .rdcrc t = .next { t with rsp := some (zext32 (low w v)) }) ∧
  (∀ (s : State) (v : Word), s.width = none → exec (.seed v) s = .next (s.flagged .noSel)) ∧
  (∀ (s : State) (w : Nat), s.width = some w → exec (.seed (s.crcOf w [])) s = exec .init s) ∧
  (∃ t, execAll [.selp 3#8, decode 0x8000014BA#36] State.reset = .next t ∧ t.rem = 0x00005D28#32 ∧
    ∃ u, execAll (msg .table [0x35#8, 0x36#8, 0x37#8, 0x38#8, 0x39#8] ++ [.rdcrc]) t = .next u ∧ u.taken = [0x0000BB3D#32]) ∧
  (∃ t, execAll [.selp 1#8, .seed 0x23#32, .upds 0x32#8, .rdcrc] State.reset = .next t ∧ t.taken = [0x00000087#32])

/-- R73: `UPDS` is one byte of the bit-serial engine on the low `W` bits of `REM` and `POLY`; `E_NOSEL` with no width; with the rule's
examples. -/
def Obligations.UpdsIsOneSerialByte : Prop :=
  (∀ arg : Word, ∃ b, decode (0x9#4 ++ arg) = .upds b ∧ b.toNat = arg.toNat % 256) ∧
  (∀ (s : State) (w : Nat) (b : Byte), s.width = some w →
    exec (.upds b) s =
      .next { s with rem := zext32 (byteStepSerial (low w s.rem) b (low w s.poly) s.ctrl.refin) }) ∧
  (∀ (s : State) (b : Byte), s.width = none → exec (.upds b) s = .next (s.flagged .noSel)) ∧
  (∀ (s : State) (w : Nat), s.width = some w → low w s.rem = 0#w → exec (.upds 0#8) s = .next { s with rem := 0#32 }) ∧
  (∃ t, execAll [.selp 3#8, .init, decode 0x900000031#36] State.reset = .next t ∧ t.rem = 0x0000832B#32 ∧
    exec .rdcrc t = .next { t with rsp := some 0x0000D4C1#32 }) ∧
  (∃ t, execAll [.selp 4#8, .init, .upds 0x00#8, .rdcrc] State.reset = .next t ∧ t.rem = 0x0000FD02#32 ∧
    t.taken = [0x000040BF#32])

/-- R81: `TGEN` writes all 256 entries from `W` and the low bits of `POLY` and sets `TV`, whatever `TV` was: a table already valid
is rewritten with what it holds, and polynomial 0 gives a table of zeros; `E_NOSEL` with no width; with the rule's example. -/
def Obligations.TgenBuildsTheTable : Prop :=
  (∀ arg : Word, decode (0xB#4 ++ arg) = .tgen) ∧
  (∀ (s : State) (w : Nat), s.width = some w → ∃ t, exec .tgen s = .next t ∧
    (∀ i, t.entry i = zext32 (tblgen w (low w s.poly) i)) ∧ t = { s with tbl := t.tbl, tv := true } ∧
    (s.tableCoherent → s.tv = true → t = s) ∧ (low w s.poly = 0#w → ∀ i, t.entry i = 0#32)) ∧
  (∀ s : State, s.width = none → exec .tgen s = .next (s.flagged .noSel)) ∧
  (∃ t, execAll [.selp 3#8, decode 0xB00000000#36] State.reset = .next t ∧ t.tv = true ∧ t.entry 1#8 = 0x00008005#32 ∧
    t.entry 255#8 = 0x00000202#32 ∧ t.statusWord = 0x0000001E#32)

/-- R86: `UPDT` builds the table first when `TV = 0`, else leaves it; then takes one byte by one look-up in the table it leaves;
`E_NOSEL` with no width; with the rule's example. -/
def Obligations.UpdtIsOneTableByte : Prop :=
  (∀ arg : Word, ∃ b, decode (0xA#4 ++ arg) = .updt b ∧ b.toNat = arg.toNat % 256) ∧
  (∀ (s : State) (w : Nat) (b : Byte), s.width = some w → ∃ t, exec (.updt b) s = .next t ∧
    (s.tv = true → t.tbl = s.tbl) ∧
    (s.tv = false → ∀ i, t.entry i = zext32 (tblgen w (low w s.poly) i)) ∧
    t.rem = zext32 (byteStepTable (low w s.rem) b (fun i => low w (t.entry i)) s.ctrl.refin) ∧
    t = { s with rem := t.rem, tbl := t.tbl, tv := true }) ∧
  (∀ (s : State) (b : Byte), s.width = none → exec (.updt b) s = .next (s.flagged .noSel)) ∧
  (∃ t, execAll [.selp 3#8, .init, decode 0xA00000031#36] State.reset = .next t ∧ t.rem = 0x0000832B#32 ∧
    t.entry 0x8C#8 = 0x0000832B#32 ∧ t.statusWord = 0x0000001E#32)

/-- R75: `RDCRC` answers `finalize` of the low `W` bits of `REM`, in one response word with bits 31:W zero, and changes nothing
else, so that a second one answers the same; straight after `INIT` it answers the empty message's CRC (R76); with no width it answers
0 beside `E_NOSEL`; with the rule's example. -/
def Obligations.RdcrcAnswersTheCrc : Prop :=
  (∀ arg : Word, decode (0xC#4 ++ arg) = .rdcrc) ∧
  (∀ (s : State) (w : Nat), s.width = some w → ∃ v, v = zext32 (finalize (low w s.rem) s.ctrl.refout (low w s.xorout)) ∧
    exec .rdcrc s = .next { s with rsp := some v } ∧ v.toNat < 2 ^ w ∧
    exec .rdcrc { s with rsp := none } = .next { s with rsp := some v }) ∧
  (∀ s : State, s.width = none → exec .rdcrc s = .next { s.flagged .noSel with rsp := some 0#32 }) ∧
  (∀ (s : State) (w : Nat), s.width = some w → ∃ t, exec .init s = .next t ∧
    exec .rdcrc t = .next { t with rsp := some (s.crcOf w []) }) ∧
  (∃ t, execAll ([.selp 3#8, .init] ++ msg .serial [0x31#8, 0x32#8, 0x33#8, 0x34#8, 0x35#8, 0x36#8, 0x37#8, 0x38#8, 0x39#8] ++
    [decode 0xC00000000#36]) State.reset = .next t ∧ t.taken = [0x0000BB3D#32])

/-- R112, R50: a reserved opcode, whatever `arg` is and in any state, sets the error flag with `E_ILLOP` and changes nothing else;
with the rule's example. -/
def Obligations.ReservedOpcodesFlagIllegal : Prop :=
  (∀ s : State, exec .reserved0 s = .next (s.flagged .illOp) ∧ exec .reservedD s = .next (s.flagged .illOp) ∧
    exec .reservedE s = .next (s.flagged .illOp) ∧ exec .reservedF s = .next (s.flagged .illOp)) ∧
  (∀ (s : State) (arg : Word), exec (decode (0x0#4 ++ arg)) s = .next (s.flagged .illOp) ∧
    exec (decode (0xD#4 ++ arg)) s = .next (s.flagged .illOp) ∧ exec (decode (0xE#4 ++ arg)) s = .next (s.flagged .illOp) ∧
    exec (decode (0xF#4 ++ arg)) s = .next (s.flagged .illOp)) ∧
  (∃ t, exec (decode 0x000000000#36) State.reset = .next t ∧ t.statusWord = 0x00000060#32)

/-! ## Rules about all commands -/

/-- R110, R51: no command traps, stops or is refused: every command completes in every state. -/
def Obligations.EveryCommandCompletes : Prop := ∀ (i : Instr) (s : State), ∃ t, exec i s = .next t

/-- R111 to R116: from a state with no error, a command sets the flag in exactly three cases, each with its own code: a reserved
opcode, a reserved preset id, a data-path command with no width selected. -/
def Obligations.ErrorsAreRaisedExactlyWhenStated : Prop :=
  ∀ (i : Instr) (s t : State), exec i s = .next t → s.err = false → s.ecode = .noError →
    (t.err = true ↔ t.ecode ≠ .noError) ∧
    (t.ecode = .illOp ↔ i.wellFormed = false) ∧
    (t.ecode = .preset ↔ ∃ id : Byte, i = .selp id ∧ 6 ≤ id.toNat) ∧
    (t.ecode = .noSel ↔ isDataPath i = true ∧ s.ctrl.wsel = .unselected)

/-- R111 to R114: each cause of an error, in any state: a reserved opcode, a reserved preset id, a data-path command with no width
selected. The command sets the error flag, keeping the record of a first error, and has no other effect and no response, but for
`RDCRC`, which answers 0. With the rules' examples from reset. -/
def Obligations.AnErrorHasNoOtherEffect : Prop :=
  (∀ (i : Instr) (s : State), i.wellFormed = false → exec i s = .next (s.flagged .illOp)) ∧
  (∀ (id : Byte) (s : State), 6 ≤ id.toNat → exec (.selp id) s = .next (s.flagged .preset)) ∧
  (∀ (i : Instr) (s : State), isDataPath i = true → s.ctrl.wsel = .unselected → i ≠ .rdcrc →
    exec i s = .next (s.flagged .noSel)) ∧
  (∀ s : State, s.ctrl.wsel = .unselected → exec .rdcrc s = .next { s.flagged .noSel with rsp := some 0#32 }) ∧
  (∃ t, exec (decode 0x000000000#36) State.reset = .next t ∧ t.statusWord = 0x00000060#32) ∧
  (∃ t, exec .init State.reset = .next t ∧ t.statusWord = 0x000000A0#32 ∧ t.rem = 0#32) ∧
  (∃ t, exec (.selp 6#8) State.reset = .next t ∧ t.statusWord = 0x000000E0#32)

/-- R18, R118: no command clears `ERR` or `ECODE`, and once `ERR = 1` no command changes either: the first error since reset is
kept. -/
def Obligations.FirstErrorIsKept : Prop :=
  ∀ (i : Instr) (s t : State), exec i s = .next t → s.err = true → t.err = true ∧ t.ecode = s.ecode

/-- R18, R111: `ERR` gates nothing: a command does the same whatever `ERR` and `ECODE` are, but for the response of `RDREG` of the
status word. -/
def Obligations.ErrorFlagGatesNothing : Prop :=
  ∀ (i : Instr) (s : State) (e : Bool) (c : ErrCode), i ≠ .rdreg .status →
    ∃ t t', exec i s = .next t ∧ exec i { s with err := e, ecode := c } = .next t' ∧
      t' = { t with err := t'.err, ecode := t'.ecode }

/-- R11 to R18, R25, R36: which commands may change each register, the table, `TV`, the error flag and the response channel. `RDREG`
changes the response channel alone, and so does `RDCRC` but for the error flag when no width is selected. -/
def Obligations.OnlyTheNamedCommandsWrite : Prop :=
  ∀ (i : Instr) (s t : State), exec i s = .next t →
    (t.ctrl ≠ s.ctrl → (∃ a b c, i = .wrctl a b c) ∨ ∃ id, i = .selp id) ∧
    (t.poly ≠ s.poly → (∃ v, i = .wrpoly v) ∨ ∃ id, i = .selp id) ∧
    (t.init ≠ s.init → (∃ v, i = .wrinit v) ∨ ∃ id, i = .selp id) ∧
    (t.xorout ≠ s.xorout → (∃ v, i = .wrxor v) ∨ ∃ id, i = .selp id) ∧
    (t.rem ≠ s.rem → i = .init ∨ (∃ v, i = .seed v) ∨ (∃ b, i = .upds b) ∨ ∃ b, i = .updt b) ∧
    (t.tbl ≠ s.tbl → i = .tgen ∨ ∃ b, i = .updt b) ∧
    (t.tv ≠ s.tv →
      (∃ a b c, i = .wrctl a b c) ∨ (∃ v, i = .wrpoly v) ∨ (∃ id, i = .selp id) ∨ i = .tgen ∨ ∃ b, i = .updt b) ∧
    (t.err ≠ s.err ∨ t.ecode ≠ s.ecode → s.err = false ∧
      (i.wellFormed = false ∨ (∃ id : Byte, i = .selp id ∧ 6 ≤ id.toNat) ∨
        (isDataPath i = true ∧ s.ctrl.wsel = .unselected))) ∧
    (t.rsp ≠ s.rsp → (∃ sel, i = .rdreg sel) ∨ i = .rdcrc) ∧
    ((∃ sel, i = .rdreg sel) → t = { s with rsp := t.rsp }) ∧
    (i = .rdcrc → t = { s with rsp := t.rsp, err := t.err, ecode := t.ecode } ∧
      (s.ctrl.wsel ≠ .unselected → t = { s with rsp := t.rsp })) ∧
    t.input = s.input ∧ t.taken = s.taken ∧ t.cfg = s.cfg

/-- R82, R17: the state machine of `TV`, complete: what it is after each command and after the reset event; and the lazy build. -/
def Obligations.TableValidStateMachine : Prop :=
  (∀ (i : Instr) (s t : State), exec i s = .next t →
    t.tv = (match i with
      | .wrctl _ _ _ => false
      | .wrpoly _ => false
      | .selp id => if id.toNat ≤ 5 then false else s.tv
      | .tgen => if s.ctrl.wsel = .unselected then s.tv else true
      | .updt _ => if s.ctrl.wsel = .unselected then s.tv else true
      | _ => s.tv)) ∧
  (∀ (s : State) (rest : List HostEvent), s.input = .reset :: rest → ∃ t, step s = .next t ∧ t.tv = false) ∧
  (∀ (s t : State) (w : Nat) (b : Byte), s.width = some w → s.tv = false → exec (.updt b) s = .next t →
    ∀ i, t.entry i = zext32 (tblgen w (low w s.poly) i))

/-- R6, R12 to R15, R49: bits 31:W take part in no computation. Two states that agree but for the upper bits of the four registers
give the same remainder and the same CRC response under every data-path command. -/
def Obligations.UpperBitsTakePartInNoComputation : Prop :=
  ∀ (s t : State) (w : Nat) (i : Instr), s.width = some w → isDataPath i = true →
    t = { s with poly := t.poly, init := t.init, xorout := t.xorout, rem := t.rem } →
    low w t.poly = low w s.poly → low w t.init = low w s.init → low w t.xorout = low w s.xorout → low w t.rem = low w s.rem →
    ∃ s' t', exec i s = .next s' ∧ exec i t = .next t' ∧ low w t'.rem = low w s'.rem ∧ t'.rsp = s'.rsp ∧ t'.tbl = s'.tbl ∧
      (i ≠ .rdcrc → i ≠ .tgen → t'.rem = s'.rem)

/-- R77 (d): bits 31:W of `REM` are zero after a successful `INIT`, `SEED`, `UPDS` or `UPDT`. -/
def Obligations.RemainderFitsTheWidth : Prop :=
  ∀ (s : State) (w : Nat) (i : Instr), s.width = some w →
    (i = .init ∨ (∃ v, i = .seed v) ∨ (∃ b, i = .upds b) ∨ ∃ b, i = .updt b) →
    ∃ t, exec i s = .next t ∧ t.rem.toNat < 2 ^ w

/-- R25: `RDREG` and `RDCRC` each produce exactly one response word and every other command produces none, errors included. -/
def Obligations.OneResponsePerRead : Prop :=
  ∀ (i : Instr) (s t : State), exec i s = .next t → s.rsp = none →
    (((∃ sel, i = .rdreg sel) ∨ i = .rdcrc) ↔ ∃ v, t.rsp = some v)

/-! ## The machine: ports, steps, invariant -/

/-- R9, R38: when the host's next event is a command word and no response is held, the step is the meaning of the decoded command, in
the state in which the word has been consumed, and nothing else. -/
def Obligations.StepRunsTheDecodedCommand : Prop :=
  ∀ (s : State) (w : CmdWord) (rest : List HostEvent), s.input = .command w :: rest → s.rsp = none →
    step s = exec (decode w) { s with input := rest }

/-- R25, R139, U15: a command offered while a response is held is not accepted; the block stops there. That is the only stop: a step
faults in no other case and is never refused. -/
def Obligations.AnUntakenResponseIsTheOnlyStop : Prop :=
  (∀ (s : State) (w : CmdWord) (rest : List HostEvent) (v : Word), s.input = .command w :: rest → s.rsp = some v →
    step s = .fault .responseNotTaken) ∧
  (∀ (s : State) (f : Fault), step s = .fault f →
    f = .responseNotTaken ∧ (∃ w rest, s.input = .command w :: rest) ∧ ∃ v, s.rsp = some v) ∧
  (∀ (s : State) (r : Refusal), step s ≠ .refused r)

/-- R25, R24, R121: a response is held until the host takes it, and goes to the host in order; the host taking with none held, or doing
nothing, changes nothing of the block. That `takeResponse` with no word held has no effect, and that an idle block may step, are the
model's own choice (log entry 4). -/
def Obligations.ResponsesAreHeldUntilTaken : Prop :=
  (∀ (s : State) (rest : List HostEvent) (v : Word), s.input = .takeResponse :: rest → s.rsp = some v →
    step s = .next { s with input := rest, rsp := none, taken := s.taken ++ [v] }) ∧
  (∀ (s : State) (rest : List HostEvent), s.input = .takeResponse :: rest → s.rsp = none →
    step s = .next { s with input := rest }) ∧
  (∀ s : State, s.input = [] → step s = .next s)

/-- R130, R23: the reset event, in any state, a response held or not: the values R23 gives; it says nothing of `TBL`. That the model's
own fields (the events left, the taken responses, the configuration) stay is the model's choice (log entries 2, 4, 5). -/
def Obligations.ResetEventSetsTheResetValues : Prop :=
  ∀ (s : State) (rest : List HostEvent), s.input = .reset :: rest → ∃ t, step s = .next t ∧
    t.ctrl = { wsel := .unselected, refin := false, refout := false } ∧ t.poly = 0#32 ∧ t.init = 0#32 ∧ t.xorout = 0#32 ∧
    t.rem = 0#32 ∧ t.tv = false ∧ t.err = false ∧ t.ecode = .noError ∧ t.rsp = none ∧
    t.input = rest ∧ t.taken = s.taken ∧ t.cfg = s.cfg

/-- R23: the state after reset, and the invariant in it (what the invariant adds to R40 is log entry 13); it says nothing of `TBL`. -/
def Obligations.ResetStateHasTheInvariant : Prop :=
  State.reset.ctrl = { wsel := .unselected, refin := false, refout := false } ∧ State.reset.poly = 0#32 ∧
  State.reset.init = 0#32 ∧ State.reset.xorout = 0#32 ∧ State.reset.rem = 0#32 ∧ State.reset.tv = false ∧
  State.reset.err = false ∧ State.reset.ecode = .noError ∧ State.reset.Inv

/-- R40, R18, R111: from every state that meets it, a step keeps the invariant: a valid table is the table of the current width and
polynomial (R40). The invariant's two other parts, that `TV = 1` implies a selected width and that `ERR = 0` exactly when `ECODE = 0`,
are deduced from R40, R18 and R111 and stated by none of them (log entry 13). -/
def Obligations.StepKeepsTheInvariant : Prop := ∀ s t : State, s.Inv → step s = .next t → t.Inv

/-- R22, R16, U1: the content of `TBL` is not observable. Two states with the table invariant that differ in `TBL` alone take the same
step: both stop alike, or both go on to states with the invariant that differ in `TBL` alone. -/
def Obligations.TableContentIsNotObservable : Prop :=
  ∀ s t : State, s.tableCoherent → t.tableCoherent → t = { s with tbl := t.tbl } →
    (∃ f, step s = .fault f ∧ step t = .fault f) ∨
    (∃ s' t', step s = .next s' ∧ step t = .next t' ∧ s'.tableCoherent ∧ t'.tableCoherent ∧ t' = { s' with tbl := t'.tbl })

/-- R140, R4: nothing depends on the latencies: the same state with other latencies takes the same step. -/
def Obligations.NothingDependsOnTheLatencies : Prop :=
  ∀ (s : State) (l : Latencies),
    (∃ f, step s = .fault f ∧ step { s with cfg := { s.cfg with lat := l } } = .fault f) ∨
    (∃ t, step s = .next t ∧
      step { s with cfg := { s.cfg with lat := l } } = .next { t with cfg := { t.cfg with lat := l } })

/-! ## The engines and whole messages -/

/-- R87: in any state with a width selected and the table invariant, `UPDT b` and `UPDS b` leave the same `REM`; they differ only in
`TBL` and `TV`. -/
def Obligations.UpdtAndUpdsLeaveTheSameRemainder : Prop :=
  ∀ (s : State) (w : Nat) (b : Byte), s.width = some w → s.tableCoherent →
    ∃ t u, exec (.updt b) s = .next t ∧ exec (.upds b) s = .next u ∧ t.rem = u.rem ∧
      t = { u with tbl := t.tbl, tv := true } ∧ t.tableCoherent

/-- R76, R87, R89: `INIT`, one update per byte by either engine in any mixture, `RDCRC` answers `crc_ref` of the message under the
descriptor in the registers, for every message, the empty one included; the descriptor and the error flag are unchanged. -/
def Obligations.MessageByEitherEngineGivesTheReferenceCrc : Prop :=
  ∀ (s : State) (w : Nat) (m : List (Engine × Byte)), s.width = some w → s.tableCoherent → s.rsp = none →
    ∃ t, execAll (.init :: (updates m ++ [.rdcrc])) s = .next t ∧
      t = { s with rem := t.rem, tbl := t.tbl, tv := t.tv, taken := s.taken ++ [s.crcOf w (m.map Prod.snd)] } ∧
      t.tableCoherent

/-- R100: incremental equivalence: a message in two parts, resumed by `SEED` of the first part's CRC or simply gone on with after
`RDCRC`, answers what the whole message answers; each update by either engine. It is stated of the states in which the table
invariant holds (R40, log entry 13) and no response is held. -/
def Obligations.IncrementalEquivalence : Prop :=
  ∀ (s : State) (w : Nat) (m1 m2 : List (Engine × Byte)), s.width = some w → s.tableCoherent → s.rsp = none →
    ∃ (c1 c : Word) (t1 t2 t3 t4 : State),
      execAll (.init :: (updates m1 ++ [.rdcrc])) s = .next t1 ∧ t1.taken = s.taken ++ [c1] ∧
      execAll (.seed c1 :: (updates m2 ++ [.rdcrc])) t1 = .next t2 ∧ t2.taken = s.taken ++ [c1, c] ∧
      execAll (updates m2 ++ [.rdcrc]) t1 = .next t3 ∧ t3.taken = s.taken ++ [c1, c] ∧
      execAll (.init :: (updates (m1 ++ m2) ++ [.rdcrc])) s = .next t4 ∧ t4.taken = s.taken ++ [c]

/-- R135: saving and restoring a message in progress: the response of `RDCRC` in one state, given to `SEED` in another state with the
same `CTRL` and `XOROUT`, whatever else happened between, puts back the low `W` bits of the remainder. -/
def Obligations.SuspendedMessageIsRestored : Prop :=
  ∀ (s t : State) (w : Nat), s.width = some w → t.ctrl = s.ctrl → t.xorout = s.xorout →
    ∃ a u, exec .rdcrc s = .next { s with rsp := some a } ∧ exec (.seed a) t = .next u ∧
      u = { t with rem := zext32 (low w s.rem) }

/-- R24, R25, R38 and R9: a host that sends any commands in order and takes every response gets, step by step, what executing the
commands one after the other gives, the responses in command order. -/
def Obligations.SendingCommandsExecutesThem : Prop :=
  ∀ (is : List Instr) (s : State) (rest : List HostEvent), s.rsp = none → s.input = sendAll is ++ rest →
    ∃ t, execAll is { s with input := rest } = .next t ∧
      Host.Core.run Sys2Proof.core (sendAll is).length s = .next t

/-- R101, R102, R90: what the source's functions answer, as their command sequences, by either engine where the source leaves it open:
the reference CRC under the standard's descriptor, from `INIT` or from the accumulator the caller gives. The three set-up functions
leave `TV = 1` and the table of the descriptor in force, or of their standard, and give no response. -/
def Obligations.SourceFunctionsAnswerTheirStandardsCrc : Prop :=
  ∀ (s : State) (e : Engine) (m : List Byte), s.rsp = none →
    (s.cfg.crc8 = Config.crc8Default → ∃ t, execAll (LibCall.commands e (.crc8 m)) s = .next t ∧
      t.taken = s.taken ++ [zext32 (crcRef m 0x07#8 0x00#8 false false 0x00#8)]) ∧
    (∀ c : Byte, ∃ t, execAll (LibCall.commands e (.crc8DvbS2Update c m)) s = .next t ∧
      t.taken = s.taken ++ [zext32 (crcRef m 0xD5#8 c false false 0x00#8)]) ∧
    (∀ c b : Byte, ∃ t, execAll (LibCall.commands e (.crc8DvbS2 c b)) s = .next t ∧
      t.taken = s.taken ++ [zext32 (crcRef [b] 0xD5#8 c false false 0x00#8)]) ∧
    (∃ t, execAll (LibCall.commands e (.crc16ArcCalculate m)) s = .next t ∧
      t.taken = s.taken ++ [zext32 (crcRef m 0x8005#16 0x0000#16 true true 0x0000#16)]) ∧
    (∃ t, execAll (LibCall.commands e (.crc16ArcUpdate m)) s = .next t ∧
      t.taken = s.taken ++ [zext32 (crcRef m 0x8005#16 0x0000#16 true true 0x0000#16)]) ∧
    (∀ c : BitVec 16, ∃ t, execAll (LibCall.commands e (.crc16ArcFast c m)) s = .next t ∧
      t.taken = s.taken ++ [zext32 (crcRef m 0x8005#16 (reflect c) true true 0x0000#16)]) ∧
    (∃ t, execAll (LibCall.commands e (.crcCcit16Fast m)) s = .next t ∧
      t.taken = s.taken ++ [zext32 (crcRef m 0x1021#16 0x0000#16 false false 0x0000#16)]) ∧
    (∃ t, execAll (LibCall.commands e (.usMBCRC16 m)) s = .next t ∧
      t.taken = s.taken ++ [zext32 (crcRef m 0x8005#16 0xFFFF#16 true true 0x0000#16)]) ∧
    (∀ w, s.width = some w → ∃ t, execAll (LibCall.commands e .crcInit) s = .next t ∧
      (∀ i, t.entry i = zext32 (tblgen w (low w s.poly) i)) ∧ t = { s with tbl := t.tbl, tv := true }) ∧
    (∃ t, execAll (LibCall.commands e .crcCcit16Init) s = .next t ∧ (∀ i, t.entry i = zext32 (tblgen 16 0x1021#16 i)) ∧
      t = { s with ctrl := { wsel := .w16, refin := false, refout := false }, poly := 0x00001021#32, init := 0x00000000#32,
                   xorout := 0x00000000#32, tbl := t.tbl, tv := true }) ∧
    (∃ t, execAll (LibCall.commands e .computeHashtableFast32) s = .next t ∧
      (∀ i, t.entry i = zext32 (tblgen 32 0x04C11DB7#32 i)) ∧
      t = { s with ctrl := { wsel := .w32, refin := true, refout := true }, poly := 0x04C11DB7#32, init := 0xFFFFFFFF#32,
                   xorout := 0xFFFFFFFF#32, tbl := t.tbl, tv := true })

/-- R102, R101, R87: the generic pair, `crc_slow` and `crc_fast`, under each of the source's three build selections: both answer the
reference CRC of the preset the name is mapped to. -/
def Obligations.GenericPairAnswersAlike : Prop :=
  ∀ (s : State) (e : Engine) (m : List Byte), s.rsp = none →
    (∃ t u, execAll (.selp (presetId (genericPreset .crcCcitt)) :: LibCall.commands e (.crcSlow m)) s = .next t ∧
      execAll (.selp (presetId (genericPreset .crcCcitt)) :: LibCall.commands e (.crcFast m)) s = .next u ∧
      t.taken = s.taken ++ [zext32 (crcRef m 0x1021#16 0x0000#16 false false 0x0000#16)] ∧ u.taken = t.taken) ∧
    (∃ t u, execAll (.selp (presetId (genericPreset .crc16)) :: LibCall.commands e (.crcSlow m)) s = .next t ∧
      execAll (.selp (presetId (genericPreset .crc16)) :: LibCall.commands e (.crcFast m)) s = .next u ∧
      t.taken = s.taken ++ [zext32 (crcRef m 0x8005#16 0x0000#16 true true 0x0000#16)] ∧ u.taken = t.taken) ∧
    (∃ t u, execAll (.selp (presetId (genericPreset .crc32)) :: LibCall.commands e (.crcSlow m)) s = .next t ∧
      execAll (.selp (presetId (genericPreset .crc32)) :: LibCall.commands e (.crcFast m)) s = .next u ∧
      t.taken = s.taken ++ [zext32 (crcRef m 0x04C11DB7#32 0xFFFFFFFF#32 true true 0xFFFFFFFF#32)] ∧ u.taken = t.taken)

/-! ## The text of the assembler -/

/-- R54, R55: what the text of a line is read as. Numbers are decimal or `0x` hexadecimal; then each line with any such numbers, in
the syntax R54 and R55 print, the names of R54 included, followed by nothing, by blanks, or by a comment from `;` to the end. That
hexadecimal digits are read in either case, that blanks may end a line, that a `;` inside a string is a character of it, that a
string holds ASCII characters, and that a line of blanks and comment alone is no command, is the model's choice (log entry 8); an
out-of-range number then has the outcome of `assemble`. -/
def Obligations.AssemblerTextIsReadAsItsLine : Prop :=
  (∀ ds : List (Fin 10), ds ≠ [] →
    number (ds.map (fun d => Nat.digitChar d.val)) = some (ds.foldl (fun n d => n * 10 + d.val) 0)) ∧
  (∀ ds : List (Fin 16), ds ≠ [] →
    number ('0' :: 'x' :: ds.map (fun d => Nat.digitChar d.val)) = some (ds.foldl (fun n d => n * 16 + d.val) 0) ∧
    number ('0' :: 'x' :: ds.map (fun d => (Nat.digitChar d.val).toUpper)) = some (ds.foldl (fun n d => n * 16 + d.val) 0)) ∧
  (∀ (k : Nat) (c e : List Char), c = [] ∨ c.head? = some ';' → e = List.replicate k ' ' ++ c →
    assembleText e = .ok [] ∧
    assembleText ("INIT".toList ++ e) = assemble .init ∧
    assembleText ("TGEN".toList ++ e) = assemble .tgen ∧
    assembleText ("RDCRC".toList ++ e) = assemble .rdcrc ∧
    (∀ (cs : List Char) (n : Nat), number cs = some n →
      assembleText ("WRPOLY ".toList ++ cs ++ e) = assemble (.wrpoly n) ∧
      assembleText ("WRINIT ".toList ++ cs ++ e) = assemble (.wrinit n) ∧
      assembleText ("WRXOR ".toList ++ cs ++ e) = assemble (.wrxor n) ∧
      assembleText ("SELP ".toList ++ cs ++ e) = assemble (.selp n) ∧
      assembleText ("RDREG ".toList ++ cs ++ e) = assemble (.rdreg n) ∧
      assembleText ("SEED ".toList ++ cs ++ e) = assemble (.seed n) ∧
      assembleText ("UPDS ".toList ++ cs ++ e) = assemble (.upds n) ∧
      assembleText ("UPDT ".toList ++ cs ++ e) = assemble (.updt n)) ∧
    (∀ (w ri ro : List Char) (nw nri nro : Nat), number w = some nw → number ri = some nri → number ro = some nro →
      assembleText ("WRCTL w=".toList ++ w ++ ", refin=".toList ++ ri ++ ", refout=".toList ++ ro ++ e) =
        assemble (.wrctl nw nri nro)) ∧
    (∀ x ∈ [("CRC8", 0), ("CRC8_DVBS2", 1), ("CRC16_CCITT", 2), ("CRC16_ARC", 3), ("CRC16_MODBUS", 4), ("CRC32", 5)],
      assembleText ("SELP ".toList ++ x.1.toList ++ e) = assemble (.selp x.2)) ∧
    (∀ x ∈ [("STATUS", 0), ("POLY", 1), ("INIT", 2), ("XOROUT", 3)],
      assembleText ("RDREG ".toList ++ x.1.toList ++ e) = assemble (.rdreg x.2)) ∧
    (∀ xs : List (List Char × Nat), (∀ x ∈ xs, number x.1 = some x.2) →
      assembleText ("MSGS".toList ++ xs.flatMap (fun x => ' ' :: x.1) ++ e) = assemble (.msgs (xs.map Prod.snd)) ∧
      assembleText ("MSGT".toList ++ xs.flatMap (fun x => ' ' :: x.1) ++ e) = assemble (.msgt (xs.map Prod.snd))) ∧
    (∀ (cs : List Char) (q : Char), q.toNat = 34 → q ∉ cs → (∀ x ∈ cs, x.toNat < 128) →
      assembleText ("MSGS ".toList ++ q :: cs ++ q :: e) = assemble (.msgs (cs.map Char.toNat)) ∧
      assembleText ("MSGT ".toList ++ q :: cs ++ q :: e) = assemble (.msgt (cs.map Char.toNat))))
end

