-- ==== Sys2Proof/Laws/Assembly.lean ====
section
/-! SUPPORT. How the text of a line is read: plain words, the end of a line, strings, and numbers. Proofs about `assembleText`
split a text into these pieces and never unfold `tokens`. -/

namespace Sys2Proof.Machine

/-- A character of a word: no separator, no `;`, no double quote. -/
def plain (c : Char) : Bool := !(c == Char.ofNat 34) && !(c == ';') && !isSeparator c

/-- The end of a line: blanks, then nothing or a comment. -/
def lineEnd : List Char → Bool
  | [] => true
  | c :: cs => c == ';' || (c == ' ' && lineEnd cs)

theorem closeWord_of_ne_nil {cur : List Char} (h : cur ≠ []) (rest : List Token) :
    closeWord cur rest = .word cur.reverse :: rest := by
  cases cur with
  | nil => exact absurd rfl h
  | cons c cs => rfl

/-- A run of plain characters goes into the word being read. -/
theorem tokens_plain (cs rest cur : List Char) (h : cs.all plain = true) :
    tokens (cs ++ rest) cur false = tokens rest (cs.reverse ++ cur) false := by
  induction cs generalizing cur with
  | nil => rfl
  | cons c cs ih =>
    simp only [List.all_cons, Bool.and_eq_true, plain, Bool.not_eq_true'] at h
    obtain ⟨⟨⟨hq, hc⟩, hs⟩, hcs⟩ := h
    simp only [List.cons_append, tokens, hq, hc, hs, Bool.false_eq_true, if_false]
    rw [ih _ hcs, List.reverse_cons, List.append_assoc]
    rfl

/-- The end of a line closes the word being read and adds nothing. -/
theorem tokens_lineEnd (e cur : List Char) (h : lineEnd e = true) : tokens e cur false = closeWord cur [] := by
  induction e generalizing cur with
  | nil => rfl
  | cons c cs ih =>
    simp only [lineEnd, Bool.or_eq_true, beq_iff_eq, Bool.and_eq_true] at h
    rcases h with rfl | ⟨rfl, hcs⟩
    · rfl
    · have ht : tokens (' ' :: cs) cur false = closeWord cur (tokens cs [] false) := rfl
      rw [ht, ih [] hcs]
      rfl

/-- A word and the blank after it are one token. -/
theorem tokens_word_blank (cs rest : List Char) (hne : cs ≠ []) (h : cs.all plain = true) :
    tokens (cs ++ ' ' :: rest) [] false = .word cs :: tokens rest [] false := by
  have hb : ∀ cur, tokens (' ' :: rest) cur false = closeWord cur (tokens rest [] false) := fun _ => rfl
  rw [tokens_plain _ _ _ h, List.append_nil, hb, closeWord_of_ne_nil (by simpa using hne), List.reverse_reverse]

/-- A word and the comma and blank after it are one token. -/
theorem tokens_word_comma (cs rest : List Char) (hne : cs ≠ []) (h : cs.all plain = true) :
    tokens (cs ++ ',' :: ' ' :: rest) [] false = .word cs :: tokens rest [] false := by
  have hb : ∀ cur, tokens (',' :: ' ' :: rest) cur false = closeWord cur (tokens rest [] false) := fun _ => rfl
  rw [tokens_plain _ _ _ h, List.append_nil, hb, closeWord_of_ne_nil (by simpa using hne), List.reverse_reverse]

/-- The last word of a line. -/
theorem tokens_word_end (cs e : List Char) (hne : cs ≠ []) (h : cs.all plain = true) (he : lineEnd e = true) :
    tokens (cs ++ e) [] false = [.word cs] := by
  rw [tokens_plain _ _ _ h, List.append_nil, tokens_lineEnd _ _ he, closeWord_of_ne_nil (by simpa using hne),
    List.reverse_reverse]

/-- A string is read to its closing quote. -/
theorem tokens_string (cs rest cur : List Char) (h : Char.ofNat 34 ∉ cs) :
    tokens (cs ++ Char.ofNat 34 :: rest) cur true = .text (cur.reverse ++ cs) :: tokens rest [] false := by
  induction cs generalizing cur with
  | nil => simp [tokens]
  | cons c cs ih =>
    rw [List.mem_cons, not_or] at h
    have hc : (c == Char.ofNat 34) = false := beq_eq_false_iff_ne.2 (Ne.symm h.1)
    simp only [List.cons_append, tokens, hc, Bool.false_eq_true, if_false]
    rw [ih _ h.2]
    simp

/-- A digit is a plain character. -/
theorem plain_of_digit {base : Nat} {c : Char} {d : Nat} (h : digit base c = some d) : plain c = true := by
  by_contra hp
  have hc : c = Char.ofNat 34 ∨ c = ';' ∨ c = ' ' ∨ c = Char.ofNat 9 ∨ c = ',' := by
    simp only [plain, isSeparator, Bool.and_eq_true, Bool.not_eq_true', not_and, Bool.not_eq_false, beq_eq_false_iff_ne,
      Bool.or_eq_true, beq_iff_eq, ne_eq] at hp
    tauto
  rcases hc with rfl | rfl | rfl | rfl | rfl <;> simp [digit] at h

/-- A string of digits is plain throughout. -/
theorem plain_of_digits {base : Nat} (cs : List Char) (k n : Nat) (h : digits base cs k = some n) :
    cs.all plain = true := by
  induction cs generalizing k with
  | nil => rfl
  | cons c cs ih =>
    simp only [digits, Option.bind_eq_some_iff] at h
    obtain ⟨d, hd, hr⟩ := h
    simp [plain_of_digit hd, ih _ hr]

/-- What a number is: not empty, plain throughout, its first character a decimal digit. -/
theorem number_some {cs : List Char} {n : Nat} (h : number cs = some n) :
    cs ≠ [] ∧ cs.all plain = true ∧ ∃ c rest d, cs = c :: rest ∧ digit 10 c = some d := by
  unfold number at h
  split at h
  · cases h
  · cases h
  · exact ⟨by simp, by simpa [plain, isSeparator] using plain_of_digits _ _ _ h, '0', _, 0, rfl, rfl⟩
  · cases cs with
    | nil => contradiction
    | cons c rest =>
      refine ⟨List.cons_ne_nil c rest, plain_of_digits _ _ _ h, ?_⟩
      simp only [digits, Option.bind_eq_some_iff] at h
      obtain ⟨d, hd, -⟩ := h
      exact ⟨c, rest, d, rfl, hd⟩

/-- A number is none of the words that start with a letter. -/
theorem number_ne {cs : List Char} {n : Nat} (h : number cs = some n) {c : Char} {rest : List Char} (hc : digit 10 c = none) :
    cs ≠ c :: rest := by
  rintro rfl
  obtain ⟨-, -, c', r', d, e, hd⟩ := number_some h
  cases e
  rw [hc] at hd
  cases hd

/-- Words that are all numbers are their bytes. -/
theorem byteNumbers_words (xs : List (List Char × Nat)) (h : ∀ x ∈ xs, number x.1 = some x.2) :
    byteNumbers (xs.map (fun x => .word x.1)) = some (xs.map Prod.snd) := by
  induction xs with
  | nil => rfl
  | cons x xs ih =>
    rw [List.forall_mem_cons] at h
    simp [byteNumbers, h.1, ih h.2]

theorem byteOperands_words (xs : List (List Char × Nat)) (h : ∀ x ∈ xs, number x.1 = some x.2) :
    byteOperands (xs.map (fun x => .word x.1)) = some (xs.map Prod.snd) := by
  rw [← byteNumbers_words xs h]
  cases xs <;> rfl

/-- A string beside any other operand is no operand of a pseudo-command. -/
theorem byteNumbers_of_text {ops : List Token} {cs : List Char} (h : .text cs ∈ ops) : byteNumbers ops = none := by
  induction ops with
  | nil => cases h
  | cons t ts ih =>
    cases t with
    | text _ => rfl
    | word w =>
      have ht : Token.text cs ∈ ts := by simpa using h
      simp [byteNumbers, ih ht]

end Sys2Proof.Machine
end

