-- ==== Sys2Proof/Laws/Crc.lean ====
section
/-! SUPPORT. The small laws of the data path: linearity of the bit steps, and the shape of a message's remainder. -/

namespace Sys2Proof.Machine

variable {w : Nat}

@[simp] theorem reflect_zero (n : Nat) : reflect (0#n) = 0#n := by
  apply BitVec.eq_of_getLsbD_eq
  simp [reflect, BitVec.getLsbD_reverse]

theorem getLsbD_bitStep (r p : BitVec w) (i : Nat) :
    (bitStep r p).getLsbD i = ((r <<< 1).getLsbD i ^^ (r.msb && p.getLsbD i)) := by
  unfold bitStep
  split <;> simp_all

/-- A bit step is linear in the remainder. -/
theorem bitStep_xor (r s p : BitVec w) : bitStep (r ^^^ s) p = bitStep r p ^^^ bitStep s p := by
  apply BitVec.eq_of_getLsbD_eq
  intro i hi
  simp only [getLsbD_bitStep, BitVec.getLsbD_xor, BitVec.msb_xor, BitVec.getLsbD_shiftLeft]
  cases r.msb <;> cases s.msb <;> cases p.getLsbD i <;> simp <;> grind

@[simp] theorem bitStep_zero (p : BitVec w) : bitStep 0#w p = 0#w := by
  simp [bitStep]

/-- Eight bit steps, or any number, are linear in the remainder. -/
theorem bitSteps_xor (p : BitVec w) (k : Nat) (r s : BitVec w) :
    bitSteps p k (r ^^^ s) = bitSteps p k r ^^^ bitSteps p k s := by
  induction k generalizing r s with
  | zero => rfl
  | succ k ih => simp only [bitSteps, bitStep_xor, ih]

@[simp] theorem bitSteps_zero (p : BitVec w) (k : Nat) : bitSteps p k 0#w = 0#w := by
  induction k with
  | zero => rfl
  | succ k ih => simp only [bitSteps, bitStep_zero, ih]

/-- Where the top `k` bits are zero, `k` bit steps are a plain shift. -/
theorem bitSteps_of_top_zero (p : BitVec w) (k : Nat) (r : BitVec w) (h : r.toNat * 2 ^ k < 2 ^ w) :
    bitSteps p k r = r <<< k := by
  induction k generalizing r with
  | zero => simp [bitSteps]
  | succ k ih =>
    have pos : 1 ≤ 2 ^ k := Nat.one_le_two_pow
    have h2 : r.toNat * 2 < 2 ^ w := by
      refine Nat.lt_of_le_of_lt ?_ h
      rw [Nat.pow_succ]; nlinarith
    have hm : r.msb = false := by rw [BitVec.msb_eq_false_iff_two_mul_lt]; omega
    have hs : bitStep r p = r <<< 1 := by simp [bitStep, hm]
    have ht : (r <<< 1).toNat = r.toNat * 2 := by
      rw [BitVec.toNat_shiftLeft, Nat.shiftLeft_eq, Nat.pow_one, Nat.mod_eq_of_lt h2]
    rw [bitSteps, hs, ih (r <<< 1) (by rw [ht, Nat.mul_assoc, ← Nat.pow_succ']; exact h)]
    rw [← BitVec.shiftLeft_add, Nat.add_comm]

@[simp] theorem remAfter_nil (p : BitVec w) (refin : Bool) (r : BitVec w) : remAfter p refin r [] = r := rfl

@[simp] theorem remAfter_cons (p : BitVec w) (refin : Bool) (r : BitVec w) (b : Byte) (m : List Byte) :
    remAfter p refin r (b :: m) = remAfter p refin (byteStepSerial r b p refin) m := rfl

/-- A message in two parts: the second goes on from the remainder of the first. -/
theorem remAfter_append (p : BitVec w) (refin : Bool) (r : BitVec w) (m n : List Byte) :
    remAfter p refin r (m ++ n) = remAfter p refin (remAfter p refin r m) n := by
  induction m generalizing r with
  | nil => rfl
  | cons b m ih => simp only [List.cons_append, remAfter_cons, ih]

end Sys2Proof.Machine
end

