-- ==== Sys2Proof/Laws/Decode.lean ====
section
/-! SUPPORT. The field laws of decoding and encoding. -/

namespace Sys2Proof

@[simp] theorem opOf_encode (i : Instr) : opOf (encode i) = opcode i := by
  apply BitVec.eq_of_getLsbD_eq
  intro k hk
  simp only [opOf, encode, BitVec.getLsbD_extractLsb', BitVec.getLsbD_append]
  simp [hk]

@[simp] theorem argOf_encode (i : Instr) : argOf (encode i) = operandBits i := by
  apply BitVec.eq_of_getLsbD_eq
  intro k hk
  simp only [argOf, encode, BitVec.getLsbD_extractLsb', BitVec.getLsbD_append]
  simp [hk]

@[simp] theorem wselOfBits_toBits (ws : WidthSel) : wselOfBits (wselToBits ws) = ws := by cases ws <;> rfl

@[simp] theorem viewOfBits_toBits (v : RegView) : viewOfBits (viewToBits v) = v := by cases v <;> rfl

theorem wselToBits_ofBits (v : BitVec 2) : wselToBits (wselOfBits v) = v := by
  revert v; decide

theorem viewToBits_ofBits (v : BitVec 2) : viewToBits (viewOfBits v) = v := by
  revert v; decide

/-- The fields of a word written as `op` before `arg` (R46). -/
@[simp] theorem opOf_append (op : BitVec 4) (arg : Word) : opOf (op ++ arg) = op := by
  unfold opOf
  exact BitVec.extractLsb'_append_eq_left

@[simp] theorem argOf_append (op : BitVec 4) (arg : Word) : argOf (op ++ arg) = arg := by
  unfold argOf
  exact BitVec.extractLsb'_append_eq_right

/-- A word is its `op` and its `arg`. -/
theorem opOf_append_argOf (w : CmdWord) : opOf w ++ argOf w = w := by
  apply BitVec.eq_of_getLsbD_eq
  intro k hk
  simp only [opOf, argOf, BitVec.getLsbD_append, BitVec.getLsbD_extractLsb']
  split
  · simp [*]
  · rename_i h
    have : k - 32 < 4 := by omega
    simp [this, show 32 + (k - 32) = k by omega]

/-- A number that fits a command word decodes to that word's command; a wider one is rejected by name. -/
theorem decodeNat_cases (n : Nat) :
    (n < 2 ^ 36 ∧ decodeNat n = .ok (decode (BitVec.ofNat 36 n))) ∨
    (2 ^ 36 ≤ n ∧ decodeNat n = .error .widerThanACommand) := by
  unfold decodeNat
  split
  · exact .inl ⟨‹_›, rfl⟩
  · exact .inr ⟨by omega, rfl⟩

end Sys2Proof
end

