-- ==== Sys2Proof/Laws/State.lean ====
section
/-! SUPPORT. One lemma per field of `State` per named update, true by `rfl`, so that no later proof unfolds a record
update; and what `flagError` and `takeResponse` leave alone. -/

namespace Sys2Proof.Machine

variable (s : State)

@[simp] theorem State.setCtrl_ctrl (c : Ctrl) : (s.setCtrl c).ctrl = c := rfl
@[simp] theorem State.setCtrl_poly (c : Ctrl) : (s.setCtrl c).poly = s.poly := rfl
@[simp] theorem State.setCtrl_init (c : Ctrl) : (s.setCtrl c).init = s.init := rfl
@[simp] theorem State.setCtrl_xorout (c : Ctrl) : (s.setCtrl c).xorout = s.xorout := rfl
@[simp] theorem State.setCtrl_rem (c : Ctrl) : (s.setCtrl c).rem = s.rem := rfl
@[simp] theorem State.setCtrl_tbl (c : Ctrl) : (s.setCtrl c).tbl = s.tbl := rfl
@[simp] theorem State.setCtrl_tv (c : Ctrl) : (s.setCtrl c).tv = s.tv := rfl
@[simp] theorem State.setCtrl_err (c : Ctrl) : (s.setCtrl c).err = s.err := rfl
@[simp] theorem State.setCtrl_ecode (c : Ctrl) : (s.setCtrl c).ecode = s.ecode := rfl
@[simp] theorem State.setCtrl_rsp (c : Ctrl) : (s.setCtrl c).rsp = s.rsp := rfl
@[simp] theorem State.setCtrl_input (c : Ctrl) : (s.setCtrl c).input = s.input := rfl
@[simp] theorem State.setCtrl_taken (c : Ctrl) : (s.setCtrl c).taken = s.taken := rfl
@[simp] theorem State.setCtrl_cfg (c : Ctrl) : (s.setCtrl c).cfg = s.cfg := rfl

@[simp] theorem State.setPoly_ctrl (v : Word) : (s.setPoly v).ctrl = s.ctrl := rfl
@[simp] theorem State.setPoly_poly (v : Word) : (s.setPoly v).poly = v := rfl
@[simp] theorem State.setPoly_init (v : Word) : (s.setPoly v).init = s.init := rfl
@[simp] theorem State.setPoly_xorout (v : Word) : (s.setPoly v).xorout = s.xorout := rfl
@[simp] theorem State.setPoly_rem (v : Word) : (s.setPoly v).rem = s.rem := rfl
@[simp] theorem State.setPoly_tbl (v : Word) : (s.setPoly v).tbl = s.tbl := rfl
@[simp] theorem State.setPoly_tv (v : Word) : (s.setPoly v).tv = s.tv := rfl
@[simp] theorem State.setPoly_err (v : Word) : (s.setPoly v).err = s.err := rfl
@[simp] theorem State.setPoly_ecode (v : Word) : (s.setPoly v).ecode = s.ecode := rfl
@[simp] theorem State.setPoly_rsp (v : Word) : (s.setPoly v).rsp = s.rsp := rfl
@[simp] theorem State.setPoly_input (v : Word) : (s.setPoly v).input = s.input := rfl
@[simp] theorem State.setPoly_taken (v : Word) : (s.setPoly v).taken = s.taken := rfl
@[simp] theorem State.setPoly_cfg (v : Word) : (s.setPoly v).cfg = s.cfg := rfl

@[simp] theorem State.setInit_ctrl (v : Word) : (s.setInit v).ctrl = s.ctrl := rfl
@[simp] theorem State.setInit_poly (v : Word) : (s.setInit v).poly = s.poly := rfl
@[simp] theorem State.setInit_init (v : Word) : (s.setInit v).init = v := rfl
@[simp] theorem State.setInit_xorout (v : Word) : (s.setInit v).xorout = s.xorout := rfl
@[simp] theorem State.setInit_rem (v : Word) : (s.setInit v).rem = s.rem := rfl
@[simp] theorem State.setInit_tbl (v : Word) : (s.setInit v).tbl = s.tbl := rfl
@[simp] theorem State.setInit_tv (v : Word) : (s.setInit v).tv = s.tv := rfl
@[simp] theorem State.setInit_err (v : Word) : (s.setInit v).err = s.err := rfl
@[simp] theorem State.setInit_ecode (v : Word) : (s.setInit v).ecode = s.ecode := rfl
@[simp] theorem State.setInit_rsp (v : Word) : (s.setInit v).rsp = s.rsp := rfl
@[simp] theorem State.setInit_input (v : Word) : (s.setInit v).input = s.input := rfl
@[simp] theorem State.setInit_taken (v : Word) : (s.setInit v).taken = s.taken := rfl
@[simp] theorem State.setInit_cfg (v : Word) : (s.setInit v).cfg = s.cfg := rfl

@[simp] theorem State.setXorout_ctrl (v : Word) : (s.setXorout v).ctrl = s.ctrl := rfl
@[simp] theorem State.setXorout_poly (v : Word) : (s.setXorout v).poly = s.poly := rfl
@[simp] theorem State.setXorout_init (v : Word) : (s.setXorout v).init = s.init := rfl
@[simp] theorem State.setXorout_xorout (v : Word) : (s.setXorout v).xorout = v := rfl
@[simp] theorem State.setXorout_rem (v : Word) : (s.setXorout v).rem = s.rem := rfl
@[simp] theorem State.setXorout_tbl (v : Word) : (s.setXorout v).tbl = s.tbl := rfl
@[simp] theorem State.setXorout_tv (v : Word) : (s.setXorout v).tv = s.tv := rfl
@[simp] theorem State.setXorout_err (v : Word) : (s.setXorout v).err = s.err := rfl
@[simp] theorem State.setXorout_ecode (v : Word) : (s.setXorout v).ecode = s.ecode := rfl
@[simp] theorem State.setXorout_rsp (v : Word) : (s.setXorout v).rsp = s.rsp := rfl
@[simp] theorem State.setXorout_input (v : Word) : (s.setXorout v).input = s.input := rfl
@[simp] theorem State.setXorout_taken (v : Word) : (s.setXorout v).taken = s.taken := rfl
@[simp] theorem State.setXorout_cfg (v : Word) : (s.setXorout v).cfg = s.cfg := rfl

@[simp] theorem State.setRem_ctrl {w : Nat} (v : BitVec w) : (s.setRem v).ctrl = s.ctrl := rfl
@[simp] theorem State.setRem_poly {w : Nat} (v : BitVec w) : (s.setRem v).poly = s.poly := rfl
@[simp] theorem State.setRem_init {w : Nat} (v : BitVec w) : (s.setRem v).init = s.init := rfl
@[simp] theorem State.setRem_xorout {w : Nat} (v : BitVec w) : (s.setRem v).xorout = s.xorout := rfl
@[simp] theorem State.setRem_rem {w : Nat} (v : BitVec w) : (s.setRem v).rem = zext32 v := rfl
@[simp] theorem State.setRem_tbl {w : Nat} (v : BitVec w) : (s.setRem v).tbl = s.tbl := rfl
@[simp] theorem State.setRem_tv {w : Nat} (v : BitVec w) : (s.setRem v).tv = s.tv := rfl
@[simp] theorem State.setRem_err {w : Nat} (v : BitVec w) : (s.setRem v).err = s.err := rfl
@[simp] theorem State.setRem_ecode {w : Nat} (v : BitVec w) : (s.setRem v).ecode = s.ecode := rfl
@[simp] theorem State.setRem_rsp {w : Nat} (v : BitVec w) : (s.setRem v).rsp = s.rsp := rfl
@[simp] theorem State.setRem_input {w : Nat} (v : BitVec w) : (s.setRem v).input = s.input := rfl
@[simp] theorem State.setRem_taken {w : Nat} (v : BitVec w) : (s.setRem v).taken = s.taken := rfl
@[simp] theorem State.setRem_cfg {w : Nat} (v : BitVec w) : (s.setRem v).cfg = s.cfg := rfl

@[simp] theorem State.invalidateTable_ctrl : s.invalidateTable.ctrl = s.ctrl := rfl
@[simp] theorem State.invalidateTable_poly : s.invalidateTable.poly = s.poly := rfl
@[simp] theorem State.invalidateTable_init : s.invalidateTable.init = s.init := rfl
@[simp] theorem State.invalidateTable_xorout : s.invalidateTable.xorout = s.xorout := rfl
@[simp] theorem State.invalidateTable_rem : s.invalidateTable.rem = s.rem := rfl
@[simp] theorem State.invalidateTable_tbl : s.invalidateTable.tbl = s.tbl := rfl
@[simp] theorem State.invalidateTable_tv : s.invalidateTable.tv = false := rfl
@[simp] theorem State.invalidateTable_err : s.invalidateTable.err = s.err := rfl
@[simp] theorem State.invalidateTable_ecode : s.invalidateTable.ecode = s.ecode := rfl
@[simp] theorem State.invalidateTable_rsp : s.invalidateTable.rsp = s.rsp := rfl
@[simp] theorem State.invalidateTable_input : s.invalidateTable.input = s.input := rfl
@[simp] theorem State.invalidateTable_taken : s.invalidateTable.taken = s.taken := rfl
@[simp] theorem State.invalidateTable_cfg : s.invalidateTable.cfg = s.cfg := rfl

@[simp] theorem State.buildTable_ctrl (w : Nat) : (s.buildTable w).ctrl = s.ctrl := rfl
@[simp] theorem State.buildTable_poly (w : Nat) : (s.buildTable w).poly = s.poly := rfl
@[simp] theorem State.buildTable_init (w : Nat) : (s.buildTable w).init = s.init := rfl
@[simp] theorem State.buildTable_xorout (w : Nat) : (s.buildTable w).xorout = s.xorout := rfl
@[simp] theorem State.buildTable_rem (w : Nat) : (s.buildTable w).rem = s.rem := rfl
@[simp] theorem State.buildTable_tbl (w : Nat) : (s.buildTable w).tbl = builtTable w (low w s.poly) := rfl
@[simp] theorem State.buildTable_tv (w : Nat) : (s.buildTable w).tv = true := rfl
@[simp] theorem State.buildTable_err (w : Nat) : (s.buildTable w).err = s.err := rfl
@[simp] theorem State.buildTable_ecode (w : Nat) : (s.buildTable w).ecode = s.ecode := rfl
@[simp] theorem State.buildTable_rsp (w : Nat) : (s.buildTable w).rsp = s.rsp := rfl
@[simp] theorem State.buildTable_input (w : Nat) : (s.buildTable w).input = s.input := rfl
@[simp] theorem State.buildTable_taken (w : Nat) : (s.buildTable w).taken = s.taken := rfl
@[simp] theorem State.buildTable_cfg (w : Nat) : (s.buildTable w).cfg = s.cfg := rfl

@[simp] theorem State.loadDescriptor_ctrl (d : Descriptor) : (s.loadDescriptor d).ctrl = { wsel := d.wsel, refin := d.refin, refout := d.refout } := rfl
@[simp] theorem State.loadDescriptor_poly (d : Descriptor) : (s.loadDescriptor d).poly = d.poly := rfl
@[simp] theorem State.loadDescriptor_init (d : Descriptor) : (s.loadDescriptor d).init = d.init := rfl
@[simp] theorem State.loadDescriptor_xorout (d : Descriptor) : (s.loadDescriptor d).xorout = d.xorout := rfl
@[simp] theorem State.loadDescriptor_rem (d : Descriptor) : (s.loadDescriptor d).rem = s.rem := rfl
@[simp] theorem State.loadDescriptor_tbl (d : Descriptor) : (s.loadDescriptor d).tbl = s.tbl := rfl
@[simp] theorem State.loadDescriptor_tv (d : Descriptor) : (s.loadDescriptor d).tv = s.tv := rfl
@[simp] theorem State.loadDescriptor_err (d : Descriptor) : (s.loadDescriptor d).err = s.err := rfl
@[simp] theorem State.loadDescriptor_ecode (d : Descriptor) : (s.loadDescriptor d).ecode = s.ecode := rfl
@[simp] theorem State.loadDescriptor_rsp (d : Descriptor) : (s.loadDescriptor d).rsp = s.rsp := rfl
@[simp] theorem State.loadDescriptor_input (d : Descriptor) : (s.loadDescriptor d).input = s.input := rfl
@[simp] theorem State.loadDescriptor_taken (d : Descriptor) : (s.loadDescriptor d).taken = s.taken := rfl
@[simp] theorem State.loadDescriptor_cfg (d : Descriptor) : (s.loadDescriptor d).cfg = s.cfg := rfl

@[simp] theorem State.respond_ctrl (v : Word) : (s.respond v).ctrl = s.ctrl := rfl
@[simp] theorem State.respond_poly (v : Word) : (s.respond v).poly = s.poly := rfl
@[simp] theorem State.respond_init (v : Word) : (s.respond v).init = s.init := rfl
@[simp] theorem State.respond_xorout (v : Word) : (s.respond v).xorout = s.xorout := rfl
@[simp] theorem State.respond_rem (v : Word) : (s.respond v).rem = s.rem := rfl
@[simp] theorem State.respond_tbl (v : Word) : (s.respond v).tbl = s.tbl := rfl
@[simp] theorem State.respond_tv (v : Word) : (s.respond v).tv = s.tv := rfl
@[simp] theorem State.respond_err (v : Word) : (s.respond v).err = s.err := rfl
@[simp] theorem State.respond_ecode (v : Word) : (s.respond v).ecode = s.ecode := rfl
@[simp] theorem State.respond_rsp (v : Word) : (s.respond v).rsp = some v := rfl
@[simp] theorem State.respond_input (v : Word) : (s.respond v).input = s.input := rfl
@[simp] theorem State.respond_taken (v : Word) : (s.respond v).taken = s.taken := rfl
@[simp] theorem State.respond_cfg (v : Word) : (s.respond v).cfg = s.cfg := rfl

@[simp] theorem State.resetEvent_ctrl : s.resetEvent.ctrl = { wsel := .unselected, refin := false, refout := false } := rfl
@[simp] theorem State.resetEvent_poly : s.resetEvent.poly = 0#32 := rfl
@[simp] theorem State.resetEvent_init : s.resetEvent.init = 0#32 := rfl
@[simp] theorem State.resetEvent_xorout : s.resetEvent.xorout = 0#32 := rfl
@[simp] theorem State.resetEvent_rem : s.resetEvent.rem = 0#32 := rfl
@[simp] theorem State.resetEvent_tv : s.resetEvent.tv = false := rfl
@[simp] theorem State.resetEvent_err : s.resetEvent.err = false := rfl
@[simp] theorem State.resetEvent_ecode : s.resetEvent.ecode = .noError := rfl
@[simp] theorem State.resetEvent_rsp : s.resetEvent.rsp = none := rfl
@[simp] theorem State.resetEvent_input : s.resetEvent.input = s.input := rfl
@[simp] theorem State.resetEvent_taken : s.resetEvent.taken = s.taken := rfl
@[simp] theorem State.resetEvent_cfg : s.resetEvent.cfg = s.cfg := rfl

@[simp] theorem State.flagError_ctrl (c : ErrCode) : (s.flagError c).ctrl = s.ctrl := by
  unfold State.flagError; split <;> rfl
@[simp] theorem State.flagError_poly (c : ErrCode) : (s.flagError c).poly = s.poly := by
  unfold State.flagError; split <;> rfl
@[simp] theorem State.flagError_init (c : ErrCode) : (s.flagError c).init = s.init := by
  unfold State.flagError; split <;> rfl
@[simp] theorem State.flagError_xorout (c : ErrCode) : (s.flagError c).xorout = s.xorout := by
  unfold State.flagError; split <;> rfl
@[simp] theorem State.flagError_rem (c : ErrCode) : (s.flagError c).rem = s.rem := by
  unfold State.flagError; split <;> rfl
@[simp] theorem State.flagError_tbl (c : ErrCode) : (s.flagError c).tbl = s.tbl := by
  unfold State.flagError; split <;> rfl
@[simp] theorem State.flagError_tv (c : ErrCode) : (s.flagError c).tv = s.tv := by
  unfold State.flagError; split <;> rfl
@[simp] theorem State.flagError_rsp (c : ErrCode) : (s.flagError c).rsp = s.rsp := by
  unfold State.flagError; split <;> rfl
@[simp] theorem State.flagError_input (c : ErrCode) : (s.flagError c).input = s.input := by
  unfold State.flagError; split <;> rfl
@[simp] theorem State.flagError_taken (c : ErrCode) : (s.flagError c).taken = s.taken := by
  unfold State.flagError; split <;> rfl
@[simp] theorem State.flagError_cfg (c : ErrCode) : (s.flagError c).cfg = s.cfg := by
  unfold State.flagError; split <;> rfl

@[simp] theorem State.takeResponse_ctrl : s.takeResponse.ctrl = s.ctrl := by
  unfold State.takeResponse; split <;> rfl
@[simp] theorem State.takeResponse_poly : s.takeResponse.poly = s.poly := by
  unfold State.takeResponse; split <;> rfl
@[simp] theorem State.takeResponse_init : s.takeResponse.init = s.init := by
  unfold State.takeResponse; split <;> rfl
@[simp] theorem State.takeResponse_xorout : s.takeResponse.xorout = s.xorout := by
  unfold State.takeResponse; split <;> rfl
@[simp] theorem State.takeResponse_rem : s.takeResponse.rem = s.rem := by
  unfold State.takeResponse; split <;> rfl
@[simp] theorem State.takeResponse_tbl : s.takeResponse.tbl = s.tbl := by
  unfold State.takeResponse; split <;> rfl
@[simp] theorem State.takeResponse_tv : s.takeResponse.tv = s.tv := by
  unfold State.takeResponse; split <;> rfl
@[simp] theorem State.takeResponse_err : s.takeResponse.err = s.err := by
  unfold State.takeResponse; split <;> rfl
@[simp] theorem State.takeResponse_ecode : s.takeResponse.ecode = s.ecode := by
  unfold State.takeResponse; split <;> rfl
@[simp] theorem State.takeResponse_input : s.takeResponse.input = s.input := by
  unfold State.takeResponse; split <;> rfl
@[simp] theorem State.takeResponse_cfg : s.takeResponse.cfg = s.cfg := by
  unfold State.takeResponse; split <;> rfl
@[simp] theorem State.takeResponse_rsp : s.takeResponse.rsp = none := by
  unfold State.takeResponse; split <;> simp_all
@[simp] theorem State.takeResponse_taken : s.takeResponse.taken = s.taken ++ s.rsp.toList := by
  unfold State.takeResponse; split <;> simp_all

@[simp] theorem State.ensureTable_ctrl (w : Nat) : (s.ensureTable w).ctrl = s.ctrl := by
  unfold State.ensureTable; split <;> rfl
@[simp] theorem State.ensureTable_poly (w : Nat) : (s.ensureTable w).poly = s.poly := by
  unfold State.ensureTable; split <;> rfl
@[simp] theorem State.ensureTable_init (w : Nat) : (s.ensureTable w).init = s.init := by
  unfold State.ensureTable; split <;> rfl
@[simp] theorem State.ensureTable_xorout (w : Nat) : (s.ensureTable w).xorout = s.xorout := by
  unfold State.ensureTable; split <;> rfl
@[simp] theorem State.ensureTable_rem (w : Nat) : (s.ensureTable w).rem = s.rem := by
  unfold State.ensureTable; split <;> rfl
@[simp] theorem State.ensureTable_err (w : Nat) : (s.ensureTable w).err = s.err := by
  unfold State.ensureTable; split <;> rfl
@[simp] theorem State.ensureTable_ecode (w : Nat) : (s.ensureTable w).ecode = s.ecode := by
  unfold State.ensureTable; split <;> rfl
@[simp] theorem State.ensureTable_rsp (w : Nat) : (s.ensureTable w).rsp = s.rsp := by
  unfold State.ensureTable; split <;> rfl
@[simp] theorem State.ensureTable_input (w : Nat) : (s.ensureTable w).input = s.input := by
  unfold State.ensureTable; split <;> rfl
@[simp] theorem State.ensureTable_taken (w : Nat) : (s.ensureTable w).taken = s.taken := by
  unfold State.ensureTable; split <;> rfl
@[simp] theorem State.ensureTable_cfg (w : Nat) : (s.ensureTable w).cfg = s.cfg := by
  unfold State.ensureTable; split <;> rfl
@[simp] theorem State.ensureTable_tv (w : Nat) : (s.ensureTable w).tv = true := by
  unfold State.ensureTable; split <;> simp_all

end Sys2Proof.Machine
end

