-- ==== Sys2Proof/Laws/Ops.lean ====
section
/-! SUPPORT. For each shared operation, once, everything it can do. -/

namespace Sys2Proof.Machine

/-- A selected width is 8, 16 or 32 (R6). -/
theorem widthOf_cases {c : WidthSel} {w : Nat} (h : widthOf c = some w) :
    (c = .w8 ∧ w = 8) ∨ (c = .w16 ∧ w = 16) ∨ (c = .w32 ∧ w = 32) := by
  cases c <;> simp_all [widthOf]

theorem State.width_cases {s : State} {w : Nat} (h : s.width = some w) : w = 8 ∨ w = 16 ∨ w = 32 := by
  rcases widthOf_cases h with ⟨_, h⟩ | ⟨_, h⟩ | ⟨_, h⟩ <;> omega

theorem State.width_le {s : State} {w : Nat} (h : s.width = some w) : w ≤ 32 := by
  rcases s.width_cases h with h | h | h <;> omega

theorem State.width_eq_none {s : State} : s.width = none ↔ s.ctrl.wsel = .unselected := by
  unfold State.width
  cases s.ctrl.wsel <;> simp [widthOf]

/-- The width depends on `CTRL` alone. -/
theorem State.width_congr {s t : State} (h : t.ctrl = s.ctrl) : t.width = s.width := by
  simp only [State.width, h]

@[simp] theorem low_zext32 {w : Nat} (h : w ≤ 32) (v : BitVec w) : low w (zext32 v) = v := by
  simp [low, zext32, BitVec.setWidth_setWidth_of_le _ h]

/-- A built table holds the generated entry at every index (R81). -/
@[simp] theorem entry_buildTable (s : State) (w : Nat) (i : Byte) :
    (s.buildTable w).entry i = zext32 (tblgen w (low w s.poly) i) := by
  simp only [State.entry, State.buildTable_tbl]
  unfold builtTable
  simp

/-- Two tables with the same entries are the same table. -/
theorem tbl_ext {s t : State} (h : ∀ i, s.entry i = t.entry i) : s.tbl = t.tbl := by
  apply Vector.ext
  intro k hk
  have := h (BitVec.ofNat 8 k)
  simpa [State.entry, Nat.mod_eq_of_lt hk] using this

/-- An entry depends on `TBL` alone. -/
theorem entry_congr {s t : State} (h : t.tbl = s.tbl) (i : Byte) : t.entry i = s.entry i := by
  simp only [State.entry, h]

/-- `flag_error` sets the flag and keeps the first cause; nothing else changes (R111). -/
theorem flagError_eq_flagged (s : State) (c : ErrCode) : s.flagError c = s.flagged c := by
  unfold State.flagError State.flagged
  split
  · rename_i h
    rw [← h]
  · rfl

@[simp] theorem State.flagError_err (s : State) (c : ErrCode) : (s.flagError c).err = true := by
  rw [flagError_eq_flagged]; rfl

@[simp] theorem State.flagError_ecode (s : State) (c : ErrCode) :
    (s.flagError c).ecode = if s.err then s.ecode else c := by
  rw [flagError_eq_flagged]; rfl

/-- A data-path command either flags `E_NOSEL` or has its effect at the selected width; it never stops (R113). -/
theorem State.onWidth_cases (s : State) (f : Nat → State) :
    (s.width = none ∧ s.onWidth f = .next (s.flagError .noSel)) ∨
    (∃ w, s.width = some w ∧ s.onWidth f = .next (f w)) := by
  unfold State.onWidth
  cases h : s.width with
  | none => exact .inl ⟨rfl, rfl⟩
  | some w => exact .inr ⟨w, rfl, rfl⟩

theorem State.onWidth_some {s : State} {w : Nat} (h : s.width = some w) (f : Nat → State) :
    s.onWidth f = .next (f w) := by
  simp only [State.onWidth, h]

theorem State.onWidth_none {s : State} (h : s.width = none) (f : Nat → State) :
    s.onWidth f = .next (s.flagError .noSel) := by
  simp only [State.onWidth, h]

/-- The lazy build leaves a valid table; it changes `TBL` and `TV` alone (R86). -/
theorem ensureTable_eq (s : State) (w : Nat) : s.ensureTable w = { s with tbl := (s.ensureTable w).tbl, tv := true } := by
  unfold State.ensureTable
  split
  · rename_i h
    rw [← h]
  · rfl

/-- After the lazy build of a state with the table invariant every entry is the generated one. -/
theorem entry_ensureTable {s : State} {w : Nat} (hw : s.width = some w) (hc : s.tableCoherent) (i : Byte) :
    (s.ensureTable w).entry i = zext32 (tblgen w (low w s.poly) i) := by
  unfold State.ensureTable
  split
  · rename_i h
    obtain ⟨w', h', he⟩ := hc h
    rw [hw] at h'
    cases h'
    exact he i
  · exact entry_buildTable s w i

/-- The table invariant depends on `CTRL`, `POLY`, `TBL` and `TV` alone. -/
theorem tableCoherent_congr {s t : State} (hc : t.ctrl = s.ctrl) (hp : t.poly = s.poly) (hb : t.tbl = s.tbl)
    (hv : t.tv = s.tv) (h : s.tableCoherent) : t.tableCoherent := by
  intro ht
  obtain ⟨w, hw, he⟩ := h (hv ▸ ht)
  refine ⟨w, (State.width_congr hc).trans hw, fun i => ?_⟩
  rw [entry_congr hb, hp]
  exact he i

theorem tableCoherent_of_tv {s : State} (h : s.tv = false) : s.tableCoherent := by
  intro ht
  rw [h] at ht
  cases ht

/-- The preset ROM has a row for exactly the ids 0 to 5 (R90). -/
theorem presetRow_eq_none (cfg : Config) (id : Byte) : presetRow cfg id = none ↔ 6 ≤ id.toNat := by
  unfold presetRow
  split <;> (simp_all; try omega)

end Sys2Proof.Machine
end

