-- ==== Sys2Proof/Laws/Exec.lean ====
section
/-! SUPPORT. What a command can do, once: `Effect i s t` lists every way `exec i s` can answer `.next t`, error branches
included. Rules about all commands are proved by cases on it, without unfolding `exec`. -/

namespace Sys2Proof.Machine

/-- The ways a command can take `s` to `t`. -/
inductive Effect : Instr → State → State → Prop where
  | wrctl (s : State) (ws : WidthSel) (ri ro : Bool) :
      Effect (.wrctl ws ri ro) s (s.setCtrl { wsel := ws, refin := ri, refout := ro }).invalidateTable
  | wrpoly (s : State) (v : Word) : Effect (.wrpoly v) s (s.setPoly v).invalidateTable
  | wrinit (s : State) (v : Word) : Effect (.wrinit v) s (s.setInit v)
  | wrxor (s : State) (v : Word) : Effect (.wrxor v) s (s.setXorout v)
  | selp (s : State) (id : Byte) (d : Descriptor) (le : id.toNat ≤ 5) (row : presetRow s.cfg id = some d) :
      Effect (.selp id) s (s.loadDescriptor d).invalidateTable
  | selpReserved (s : State) (id : Byte) (ge : 6 ≤ id.toNat) : Effect (.selp id) s (s.flagError .preset)
  | rdreg (s : State) (v : RegView) : Effect (.rdreg v) s (s.respond (s.view v))
  | init (s : State) (w : Nat) (hw : s.width = some w) : Effect .init s (s.setRem (low w s.init))
  | seed (s : State) (w : Nat) (v : Word) (hw : s.width = some w) : Effect (.seed v) s (s.setRem (s.seedRem w v))
  | upds (s : State) (w : Nat) (b : Byte) (hw : s.width = some w) : Effect (.upds b) s (s.setRem (s.serialStep w b))
  | updt (s : State) (w : Nat) (b : Byte) (hw : s.width = some w) :
      Effect (.updt b) s ((s.ensureTable w).setRem ((s.ensureTable w).tableStep w b))
  | tgen (s : State) (w : Nat) (hw : s.width = some w) : Effect .tgen s (s.buildTable w)
  | rdcrc (s : State) (w : Nat) (hw : s.width = some w) : Effect .rdcrc s (s.respond (zext32 (s.crc w)))
  | noWidth (i : Instr) (s : State) (dp : isDataPath i = true) (ne : i ≠ .rdcrc) (hw : s.width = none) :
      Effect i s (s.flagError .noSel)
  | rdcrcNoWidth (s : State) (hw : s.width = none) : Effect .rdcrc s ((s.flagError .noSel).respond 0#32)
  | reserved (i : Instr) (s : State) (r : i.wellFormed = false) : Effect i s (s.flagError .illOp)

/-- A data-path effect at the selected width, or `E_NOSEL`. -/
theorem effect_onWidth {i : Instr} {s t : State} {f : Nat → State} (dp : isDataPath i = true) (ne : i ≠ .rdcrc)
    (some_case : ∀ w, s.width = some w → Effect i s (f w)) (h : s.onWidth f = .next t) : Effect i s t := by
  rcases s.onWidth_cases f with ⟨hw, e⟩ | ⟨w, hw, e⟩ <;> rw [e] at h <;> cases h
  · exact .noWidth i s dp ne hw
  · exact some_case w hw

/-- The inversion lemma of `exec`. -/
theorem exec_effect {i : Instr} {s t : State} (h : exec i s = .next t) : Effect i s t := by
  cases i with
  | wrctl ws ri ro => cases h; exact .wrctl s ws ri ro
  | wrpoly v => cases h; exact .wrpoly s v
  | wrinit v => cases h; exact .wrinit s v
  | wrxor v => cases h; exact .wrxor s v
  | rdreg v => cases h; exact .rdreg s v
  | init => exact effect_onWidth rfl (by simp) (fun w hw => .init s w hw) h
  | seed v => exact effect_onWidth rfl (by simp) (fun w hw => .seed s w v hw) h
  | upds b => exact effect_onWidth rfl (by simp) (fun w hw => .upds s w b hw) h
  | updt b => exact effect_onWidth rfl (by simp) (fun w hw => .updt s w b hw) h
  | tgen => exact effect_onWidth rfl (by simp) (fun w hw => .tgen s w hw) h
  | selp id =>
    simp only [exec, execSelp] at h
    cases hr : presetRow s.cfg id with
    | none =>
      simp only [hr] at h
      cases h
      exact .selpReserved s id ((presetRow_eq_none s.cfg id).1 hr)
    | some d =>
      simp only [hr] at h
      cases h
      refine .selp s id d ?_ hr
      by_contra hc
      rw [(presetRow_eq_none s.cfg id).2 (by omega)] at hr
      cases hr
  | rdcrc =>
    simp only [exec, execRdcrc] at h
    cases hw : s.width with
    | none => simp only [hw] at h; cases h; exact .rdcrcNoWidth s hw
    | some w => simp only [hw] at h; cases h; exact .rdcrc s w hw
  | reserved0 => cases h; exact .reserved _ s rfl
  | reservedD => cases h; exact .reserved _ s rfl
  | reservedE => cases h; exact .reserved _ s rfl
  | reservedF => cases h; exact .reserved _ s rfl

end Sys2Proof.Machine
end

