-- ==== Sys2Proof/Laws/PerInstr.lean ====
section
/-! SUPPORT. The family `EncodeClean`: the encoding of a command has the command's opcode and no bit of `arg` set outside the
bits its format uses (`30_encoding.md` R51: "An assembler must write them as zero"). -/

namespace Sys2Proof.Laws.EncodeClean

/-- The encoding of `i` has `i`'s opcode and no reserved bit set. -/
def Statement (i : Instr) : Prop :=
  opOf (encode i) = opcode i ∧ argOf (encode i) &&& ~~~usedArg i = 0#32

theorem wide (v : Word) : v &&& ~~~(0xFFFFFFFF#32) = 0#32 := by
  have : (~~~(0xFFFFFFFF#32) : Word) = 0#32 := by decide
  rw [this, BitVec.and_zero]

theorem narrow (b : Byte) : (0#24 ++ b : Word) &&& ~~~(0x000000FF#32) = 0#32 := by
  revert b; decide

theorem wrctl (wsel : WidthSel) (refin refout : Bool) : Statement (.wrctl wsel refin refout) := by
  refine ⟨opOf_encode _, ?_⟩
  rw [argOf_encode]
  cases wsel <;> cases refin <;> cases refout <;> decide
theorem wrpoly (value : Word) : Statement (.wrpoly value) := ⟨opOf_encode _, by rw [argOf_encode]; exact wide value⟩
theorem wrinit (value : Word) : Statement (.wrinit value) := ⟨opOf_encode _, by rw [argOf_encode]; exact wide value⟩
theorem wrxor (value : Word) : Statement (.wrxor value) := ⟨opOf_encode _, by rw [argOf_encode]; exact wide value⟩
theorem selp (id : Byte) : Statement (.selp id) := ⟨opOf_encode _, by rw [argOf_encode]; exact narrow id⟩
theorem rdreg (sel : RegView) : Statement (.rdreg sel) := ⟨opOf_encode _, by rw [argOf_encode]; cases sel <;> decide⟩
theorem init : Statement .init := ⟨opOf_encode _, by decide⟩
theorem seed (value : Word) : Statement (.seed value) := ⟨opOf_encode _, by rw [argOf_encode]; exact wide value⟩
theorem upds (byte : Byte) : Statement (.upds byte) := ⟨opOf_encode _, by rw [argOf_encode]; exact narrow byte⟩
theorem updt (byte : Byte) : Statement (.updt byte) := ⟨opOf_encode _, by rw [argOf_encode]; exact narrow byte⟩
theorem tgen : Statement .tgen := ⟨opOf_encode _, by decide⟩
theorem rdcrc : Statement .rdcrc := ⟨opOf_encode _, by decide⟩
theorem reserved0 : Statement .reserved0 := ⟨opOf_encode _, by decide⟩
theorem reservedD : Statement .reservedD := ⟨opOf_encode _, by decide⟩
theorem reservedE : Statement .reservedE := ⟨opOf_encode _, by decide⟩
theorem reservedF : Statement .reservedF := ⟨opOf_encode _, by decide⟩

end Sys2Proof.Laws.EncodeClean
end

