-- ==== Sys2Proof/Laws/Step.lean ====
section
/-! SUPPORT. What a step can do, once: provers split on this and never unfold `step`. -/

namespace Sys2Proof.Machine

/-- A step that goes on is one of four things: the block idles, the reset event, the host takes a response, or a command runs. -/
theorem step_next_cases {s t : State} (h : step s = .next t) :
    (s.input = [] ∧ t = s) ∨
    (∃ rest, s.input = .reset :: rest ∧ t = ({ s with input := rest } : State).resetEvent) ∨
    (∃ rest, s.input = .takeResponse :: rest ∧ t = ({ s with input := rest } : State).takeResponse) ∨
    (∃ w rest, s.input = .command w :: rest ∧ s.rsp = none ∧ exec (decode w) { s with input := rest } = .next t) := by
  cases hi : s.input with
  | nil =>
    simp only [step, State.nextAction, hi, Host.Outcome.next.injEq] at h
    exact .inl ⟨rfl, h.symm⟩
  | cons e rest =>
    cases e with
    | reset =>
      simp only [step, State.nextAction, hi, Host.Outcome.next.injEq] at h
      exact .inr (.inl ⟨rest, rfl, h.symm⟩)
    | takeResponse =>
      simp only [step, State.nextAction, hi, Host.Outcome.next.injEq] at h
      exact .inr (.inr (.inl ⟨rest, rfl, h.symm⟩))
    | command w =>
      cases hr : s.rsp with
      | none =>
        simp only [step, State.nextAction, hi, hr] at h
        exact .inr (.inr (.inr ⟨w, rest, rfl, rfl, h⟩))
      | some v => simp [step, State.nextAction, hi, hr] at h

/-- The word that `offer` places is the next one the block accepts, in the state as it was, less a response that was held. -/
theorem State.nextAction_offer (s : State) (w : CmdWord) : (s.offer w).nextAction = .run w s.takeResponse := by
  obtain ⟨c, p, i, x, r, tb, tv, e, ec, rsp, inp, tk, cfg⟩ := s
  cases rsp <;> rfl

/-- The word that `withFetchWord` places is the next command to run. -/
theorem step_withFetchWord (s : State) (nbits : Nat) (w : CmdWord) (h : 36 ≤ nbits) :
    step (s.withFetchWord nbits w.toNat) = exec (decode w) s.takeResponse := by
  have hw : w.toNat % 2 ^ nbits = w.toNat :=
    Nat.mod_eq_of_lt (Nat.lt_of_lt_of_le w.isLt (Nat.pow_le_pow_right (by decide) h))
  simp only [step, State.withFetchWord, State.nextAction_offer, hw, BitVec.ofNat_toNat, BitVec.setWidth_eq]

/-- The decoder of the interface reads the same word. -/
theorem decodeTableWord_toNat (nbits : Nat) (w : CmdWord) (h : 36 ≤ nbits) :
    decodeTableWord nbits w.toNat = some (decode w) := by
  have hw : w.toNat % 2 ^ nbits = w.toNat :=
    Nat.mod_eq_of_lt (Nat.lt_of_lt_of_le w.isLt (Nat.pow_le_pow_right (by decide) h))
  simp only [decodeTableWord, decodeNat, hw, w.isLt, if_true, BitVec.ofNat_toNat, BitVec.setWidth_eq]

end Sys2Proof.Machine
end

