-- ==== Sys2Proof/Tests/Slice0.lean ====
section
/-! SUPPORT. The model's own tests. Expected values are the spec's: the vectors S, V and the programs P of
`95_test_vectors.md`, the examples of the rules, and hand calculation from them; the source stands at each group. -/

namespace Sys2Proof.Tests

open Sys2Proof.Machine

/-- The next state, if there is one. -/
def next? : Result → Option State
  | .next t => some t
  | .fault _ => none
  | .refused _ => none

/-- A state with a descriptor and a remainder, all else as after reset. -/
def st (ws : WidthSel) (ri ro : Bool) (poly init xorout rem : Word) : State :=
  { State.reset with ctrl := { wsel := ws, refin := ri, refout := ro }, poly := poly, init := init, xorout := xorout, rem := rem }

/-- ARC, CCITT, CRC-32 and DVB-S2 with a remainder. -/
def arc (rem : Word) : State := st .w16 true true 0x8005#32 0#32 0#32 rem
def ccitt (rem : Word) : State := st .w16 false false 0x1021#32 0#32 0#32 rem
def crc32 (rem : Word) : State := st .w32 true true 0x04C11DB7#32 0xFFFFFFFF#32 0xFFFFFFFF#32 rem
def dvb (rem : Word) : State := st .w8 false false 0xD5#32 0#32 0#32 rem

/-! ## Well-formedness: an ill-formed term for each check -/

theorem test_wf_reserved : [Instr.reserved0, .reservedD, .reservedE, .reservedF].map Instr.wellFormed =
    [false, false, false, false] := by decide
theorem test_wf_commands : [Instr.wrctl .unselected false false, .selp 255#8, .init, .rdcrc].map Instr.wellFormed =
    [true, true, true, true] := by decide
theorem test_wf_asm_width : (AsmLine.wrctl 24 0 0).wellFormed = false := by decide
theorem test_wf_asm_refin : (AsmLine.wrctl 16 2 0).wellFormed = false := by decide
theorem test_wf_asm_refout : (AsmLine.wrctl 16 0 2).wellFormed = false := by decide
theorem test_wf_asm_values : [AsmLine.wrpoly (2 ^ 32), .wrinit (2 ^ 32), .wrxor (2 ^ 32), .seed (2 ^ 32)].map AsmLine.wellFormed =
    [false, false, false, false] := by decide
theorem test_wf_asm_small : [AsmLine.selp 256, .rdreg 4, .upds 256, .updt 256].map AsmLine.wellFormed =
    [false, false, false, false] := by decide
theorem test_wf_asm_messages : [AsmLine.msgs [1, 256], .msgt [256]].map AsmLine.wellFormed = [false, false] := by decide
theorem test_wf_word : reservedBitsZero 0x10000001E#36 = false ∧ reservedBitsZero 0x10000000E#36 = true := by decide

/-! ## Decoding: words written out from R46 to R48 (op in 35:32, arg in 31:0), R56, V1 to V10 -/

theorem test_decode_wrctl : decode 0b0001_00000000000000000000000000001110#36 = .wrctl .w16 true true := by decide
theorem test_decode_wrctl_refin_only : decode 0b0001_00000000000000000000000000000101#36 = .wrctl .w8 true false := by decide
theorem test_decode_wrpoly : decode 0b0010_00000100110000010001110110110111#36 = .wrpoly 0x04C11DB7#32 := by decide
theorem test_decode_wrinit : decode 0b0011_00000000000000001111111111111111#36 = .wrinit 0xFFFF#32 := by decide
theorem test_decode_wrxor : decode 0b0100_11111111111111111111111111111111#36 = .wrxor 0xFFFFFFFF#32 := by decide
theorem test_decode_selp : decode 0b0101_00000000000000000000000000000101#36 = .selp 5#8 := by decide
theorem test_decode_rdreg : decode 0b0110_00000000000000000000000000000010#36 = .rdreg .init := by decide
theorem test_decode_init : decode 0b0111_00000000000000000000000000000000#36 = .init := by decide
theorem test_decode_seed : decode 0b1000_00000000000000001011101100111101#36 = .seed 0xBB3D#32 := by decide
theorem test_decode_upds : decode 0b1001_00000000000000000000000000110001#36 = .upds 0x31#8 := by decide
theorem test_decode_updt : decode 0b1010_00000000000000000000000000110001#36 = .updt 0x31#8 := by decide
theorem test_decode_tgen : decode 0b1011_00000000000000000000000000000000#36 = .tgen := by decide
theorem test_decode_rdcrc : decode 0b1100_00000000000000000000000000000000#36 = .rdcrc := by decide
theorem test_decode_reserved : [0x000000000#36, 0xD00000000#36, 0xE12345678#36, 0xFFFFFFFFF#36].map decode =
    [.reserved0, .reservedD, .reservedE, .reservedF] := by decide
/-- V6, V7, V9, V10: reserved bits are ignored. -/
theorem test_decode_ignores : [0x9FFFFFF31#36, 0x10000001E#36, 0x5000000FF#36, 0x500000105#36].map decode =
    [.upds 0x31#8, .wrctl .w16 true true, .selp 255#8, .selp 5#8] := by decide
/-- R56. -/
theorem test_encode : [Instr.wrctl .w32 true true, .seed 0xBB3D#32, .updt 0x31#8, .rdcrc].map encode =
    [0x10000000F#36, 0x80000BB3D#36, 0xA00000031#36, 0xC00000000#36] := by decide
theorem test_table_rows : opcodeTable.map (fun r => mnemonic (decode r.pattern)) = opcodeTable.map OpRow.mnemonic := by
  decide +kernel
theorem test_decode_number : decodeTableWord 40 0xB00000000 = some .tgen ∧ decodeTableWord 36 0xB00000000 = some .tgen ∧
    decodeTableWord 40 0x1B00000000 = none := by decide

/-! ## Commands, one step each -/

/-- R60's example. -/
theorem test_wrctl : (next? (exec (.wrctl .w16 true true) State.reset)).map State.statusWord = some 0x0000000E#32 := by decide
/-- V14: the same value written again clears `TV`. -/
theorem test_wrctl_clears_tv : (next? (exec (.wrctl .w16 true true) { arc 0#32 with tv := true })).map State.tv = some false := by
  decide
/-- V12: stored whole. -/
theorem test_wrpoly : (next? (exec (.wrpoly 0x18005#32) State.reset)).map State.poly = some 0x18005#32 := by decide
/-- V13. -/
theorem test_wrpoly_clears_tv : (next? (exec (.wrpoly 0x8005#32) { arc 0#32 with tv := true })).map State.tv = some false := by
  decide
/-- R62, V13: `TV` and `REM` stay. -/
theorem test_wrinit : (next? (exec (.wrinit 0xFFFF#32) { arc 7#32 with tv := true })).map (fun t => (t.init, t.rem, t.tv)) =
    some (0xFFFF#32, 7#32, true) := by decide
/-- R63, V14. -/
theorem test_wrxor : (next? (exec (.wrxor 0xFFFFFFFF#32) { arc 7#32 with tv := true })).map (fun t => (t.xorout, t.init, t.tv)) =
    some (0xFFFFFFFF#32, 0#32, true) := by decide
/-- R91's example. -/
theorem test_selp_crc32 : (next? (exec (.selp 5#8) State.reset)).map (fun t => (t.statusWord, t.poly, t.init, t.xorout)) =
    some (0x0000000F#32, 0x04C11DB7#32, 0xFFFFFFFF#32, 0xFFFFFFFF#32) := by decide
/-- V55: a failed `SELP` keeps the descriptor and `TV`. -/
theorem test_selp_reserved : (next? (exec (.selp 7#8) { arc 0#32 with tv := true })).map State.statusWord = some 0x000000FE#32 := by
  decide
/-- R64's example after `SELP CRC16_MODBUS`, and R19 with every field set. -/
theorem test_rdreg_status : (next? (exec (.rdreg .status) { arc 0#32 with tv := true, err := true, ecode := .preset })).map State.rsp =
    some (some 0x000000FE#32) := by decide
theorem test_rdreg_init : (next? (exec (.rdreg .init) (crc32 0#32))).map State.rsp = some (some 0xFFFFFFFF#32) := by decide
/-- P5 step 4: loaded unreflected. -/
theorem test_init : (next? (exec .init (st .w16 false true 0x1021#32 0x1234#32 1#32 0#32))).map State.rem = some 0x1234#32 := by decide
/-- V51. -/
theorem test_init_no_width : (next? (exec .init State.reset)).map (fun t => (t.statusWord, t.rem)) = some (0x000000A0#32, 0#32) := by
  decide
/-- V31; V32. -/
theorem test_seed_arc : (next? (exec (.seed 0x14BA#32) (arc 0#32))).map State.rem = some 0x5D28#32 := by decide
theorem test_seed_crc32 : (next? (exec (.seed 0x9BE3E0A3#32) (crc32 0#32))).map State.rem = some 0x3AF83826#32 := by decide +kernel
/-- P1 step 2; P6 step 5: width changed under a live remainder. -/
theorem test_upds_modbus : (next? (exec (.upds 0x01#8) (arc 0xFFFF#32))).map State.rem = some 0x7E01#32 := by decide +kernel
theorem test_upds_narrowed : (next? (exec (.upds 0x00#8) (st .w16 true true 0x04C11DB7#32 0#32 0#32 0x1208C43E#32))).map State.rem =
    some 0x00000E93#32 := by decide +kernel
/-- V35; P2 step 3 and P3 step 9. -/
theorem test_updt_lazy : (next? (exec (.updt 0x31#8) (arc 0#32))).map (fun t => (t.rem, t.entry 0x8C#8, t.tv)) =
    some (0x832B#32, 0x832B#32, true) := by decide +kernel
theorem test_updt_crc32 : (next? (exec (.updt 0x32#8) ((crc32 0x1208C43E#32).buildTable 32))).map State.rem =
    some 0x4CDD350D#32 := by decide +kernel
/-- V26; V27. -/
theorem test_tgen_arc : (next? (exec .tgen (arc 0#32))).map (fun t => [0, 1, 2, 3, 128, 255].map (fun i => t.entry (.ofNat 8 i))) =
    some [0x0000#32, 0x8005#32, 0x800F#32, 0x000A#32, 0x8303#32, 0x0202#32] := by decide +kernel
theorem test_tgen_crc32 : (next? (exec .tgen (crc32 0#32))).map (fun t => [1, 2, 3, 128, 255].map (fun i => t.entry (.ofNat 8 i))) =
    some [0x04C11DB7#32, 0x09823B6E#32, 0x0D4326D9#32, 0x690CE0EE#32, 0xB1F740B4#32] := by decide +kernel
/-- P5 step 8: reflect, then xor; V53. -/
theorem test_rdcrc_order : (next? (exec .rdcrc (st .w16 false true 0x1021#32 0x1234#32 1#32 0x45BD#32))).map State.rsp =
    some (some 0xBDA3#32) := by decide +kernel
theorem test_rdcrc_no_width : (next? (exec .rdcrc State.reset)).map (fun t => (t.rsp, t.statusWord)) =
    some (some 0#32, 0x000000A0#32) := by decide
/-- V50, and V54: the first error is kept. -/
theorem test_reserved0 : (next? (exec .reserved0 State.reset)).map State.statusWord = some 0x00000060#32 := by decide
theorem test_reservedD : (next? (exec .reservedD State.reset)).map State.statusWord = some 0x00000060#32 := by decide
theorem test_reservedE : (next? (exec .reservedE State.reset)).map State.statusWord = some 0x00000060#32 := by decide
theorem test_reservedF_later : (next? (exec .reservedF { State.reset with err := true, ecode := .preset })).map State.statusWord =
    some 0x000000E0#32 := by decide

/-! ## The pure functions: printed table entries (R80), mirror entries (V29), residues (V40, V41, V44) -/

theorem test_table_dvb : [1, 2, 3, 128, 255].map (fun i => tblgen 8 0xD5#8 (.ofNat 8 i)) = [0xD5#8, 0x7F#8, 0xAA#8, 0xEF#8, 0xF9#8] := by
  decide +kernel
theorem test_mirror_table : [0, 1, 2, 128, 255].map (fun i => mirrorTable 16 0x8005#16 (.ofNat 8 i)) =
    [0x0000#16, 0xC0C1#16, 0xC181#16, 0xA001#16, 0x4040#16] := by decide +kernel
theorem test_known_answer_modbus : crcRef [0x01#8, 0x03#8, 0x00#8, 0x00#8, 0x00#8, 0x0A#8] 0x8005#16 0xFFFF#16 true true 0#16 = 0xCDC5#16 ∧
    bytesLowFirst 2 0xCDC5#32 = [0xC5#8, 0xCD#8] := by decide +kernel
theorem test_residue_modbus :
    crcRef [0x01#8, 0x03#8, 0x00#8, 0x00#8, 0x00#8, 0x0A#8, 0xC5#8, 0xCD#8] 0x8005#16 0xFFFF#16 true true 0#16 = 0#16 ∧
    crcRef [0x01#8, 0x03#8, 0x00#8, 0x00#8, 0x00#8, 0x0A#8, 0xCD#8, 0xC5#8] 0x8005#16 0xFFFF#16 true true 0#16 = 0x0606#16 := by
  decide +kernel

/-! ## The assembler notation (R54, R55) -/

theorem test_asm_wrctl : assembleText "WRCTL w=16, refin=1, refout=0 ; x".toList = .ok [.wrctl .w16 true false] := by decide +kernel
theorem test_asm_numbers : [assembleText "WRPOLY 0x8005".toList, assembleText "SELP CRC32".toList, assembleText "UPDS 300".toList] =
    [.ok [.wrpoly 0x8005#32], .ok [.selp 5#8], .error .outOfRange] := by decide +kernel
theorem test_asm_message : assembleText ['M', 'S', 'G', 'T', ' ', Char.ofNat 34, '1', ';', Char.ofNat 34] =
    .ok [.updt 0x31#8, .updt 0x3B#8] := by decide +kernel
/-- A string stands alone (log entry 8), and its quote needs no blank before it. -/
theorem test_asm_string_alone :
    [assembleText ("MSGS 0x31 ".toList ++ [Char.ofNat 34, '2', Char.ofNat 34]),
     assembleText ("MSGS ".toList ++ [Char.ofNat 34, '2', Char.ofNat 34, ' ', '1']),
     assembleText ("MSGS".toList ++ [Char.ofNat 34, '2', Char.ofNat 34])] =
    [.error .notALine, .error .notALine, .ok [.upds 0x32#8]] := by decide +kernel
theorem test_asm_reject : [assembleText "NOP".toList, assembleText "UPDS".toList, assembleText "; only a comment".toList] =
    [.error .notALine, .error .notALine, .ok []] := by decide +kernel

/-! ## Steps and ports -/

theorem test_first_word_runs : (next? (step (State.reset.withFetchWord 40 0x500000004))).map (fun t => (t.statusWord, t.init, t.input)) =
    some (0x0000000E#32, 0x0000FFFF#32, []) := by decide
theorem test_stall : step { State.reset with input := [.command 0x700000000#36], rsp := some 1#32 } = .fault .responseNotTaken := rfl
theorem test_take : (next? (step { State.reset with input := [.takeResponse], rsp := some 1#32, taken := [7#32] })).map
    (fun t => (t.rsp, t.taken, t.input)) = some (none, [7#32, 1#32], []) := by decide
theorem test_reset_event : (next? (step { arc 5#32 with input := [.reset], tv := true, err := true, ecode := .illOp, rsp := some 1#32 })).map
    (fun t => (t.statusWord, t.poly, t.rem, t.rsp)) = some (0#32, 0#32, 0#32, none) := by decide

/-! ## Witnesses: for every statement with hypotheses, a state and operands that meet them all together -/

theorem built_coherent (s : State) (w : Nat) (h : s.width = some w) : (s.buildTable w).tableCoherent :=
  fun _ => ⟨w, h, entry_buildTable s w⟩

theorem witness_EncodeOfDecodeIsTheAssemblerWord : reservedBitsZero 0x9000000FF#36 = true := by decide
theorem witness_ReservedArgumentBitsAreIgnored :
    (0x9FFFFFF31#36 : CmdWord).extractLsb' 32 4 = (0x900000031#36 : CmdWord).extractLsb' 32 4 ∧
    (0x9FFFFFF31#36 : CmdWord).extractLsb' 0 32 &&& usedArg (decode 0x9FFFFFF31#36) =
      (0x900000031#36 : CmdWord).extractLsb' 0 32 &&& usedArg (decode 0x9FFFFFF31#36) := by decide
theorem witness_OpcodesAndFieldsAreRead : [0, 1, 2, 0xFFFFFFFF].map (fun n => (BitVec.ofNat 32 n).toNat % 4) = [0, 1, 2, 3] := by decide
theorem witness_AssembledLinesAreCleanCommands : (AsmLine.wrpoly (2 ^ 32)).wellFormed = false ∧
    (AsmLine.wrpoly (2 ^ 32 - 1)).wellFormed = true ∧ (AsmLine.msgs [0, 255]).wellFormed = true := by decide
theorem witness_AssemblerTextIsReadAsItsLine : "  ; x".toList = List.replicate 2 ' ' ++ "; x".toList ∧
    "; x".toList.head? = some ';' ∧ number "10".toList = some 10 ∧ number "0xFf".toList = some 255 ∧
    Char.ofNat 34 ∉ "1;9".toList ∧ ("1;9".toList.all (fun c => decide (c.toNat < 128))) = true := by decide +kernel
theorem witness_widths : ∀ w ∈ [8, 16, 32], (w = 8 ∨ w = 16 ∨ w = 32) ∧ w ≤ 32 ∧ 0 < w ∧ w - 1 < w := by decide
theorem witness_SerialByteIsEightBitSteps : ∀ i, i < 16 → (0x7FFF#16 : BitVec 16).getLsbD i = ((0xFFFF#16 : BitVec 16).getLsbD i ^^
    (decide (16 - 8 ≤ i) && (if true then (0x01#8 : Byte).getLsbD (7 - (i - (16 - 8))) else (0x01#8 : Byte).getLsbD (i - (16 - 8))))) := by
  decide
theorem witness_SerialByteIsEightBitSteps_width8 : ∀ i, i < 8 → (0x31#8 : BitVec 8).getLsbD i = ((0x00#8 : BitVec 8).getLsbD i ^^
    (decide (8 - 8 ≤ i) && (if false then (0x31#8 : Byte).getLsbD (7 - (i - (8 - 8))) else (0x31#8 : Byte).getLsbD (i - (8 - 8))))) := by
  decide
theorem witness_TableByteIsOneLookup : ∀ j, j < 8 → (0x8C#8 : Byte).getLsbD j = ((0x0000#16 : BitVec 16).getLsbD (16 - 8 + j) ^^
    (if true then (0x31#8 : Byte).getLsbD (7 - j) else (0x31#8 : Byte).getLsbD j)) := by decide
theorem coeff_one (i : Nat) : (1 : Polynomial (ZMod 2)).coeff i = if (1#8 : BitVec 8).getLsbD i then 1 else 0 := by
  rw [Polynomial.coeff_one]
  by_cases h : i = 0 <;> simp [h]
theorem witness_BitStepIsPolynomialDivision : (∀ i, (1 : Polynomial (ZMod 2)).coeff i = if (1#8 : BitVec 8).getLsbD i then 1 else 0) ∧
    (∀ i, (Polynomial.X : Polynomial (ZMod 2)).coeff i = if (bitStep (1#8 : BitVec 8) 1#8).getLsbD i then 1 else 0) := by
  refine ⟨coeff_one, fun i => ?_⟩
  have hb : bitStep (1#8 : BitVec 8) 1#8 = BitVec.twoPow 8 1 := by decide
  rw [hb, Polynomial.coeff_X, BitVec.getLsbD_twoPow]
  by_cases h : i = 1
  · subst h; rfl
  · simp [Ne.symm h]
theorem witness_MessageRemainderIsPolynomialRemainder :
    (∀ i, (0 : Polynomial (ZMod 2)).coeff i = if (0#8 : BitVec 8).getLsbD i then 1 else 0) ∧
    (∀ i, (1 : Polynomial (ZMod 2)).coeff i = if (1#8 : BitVec 8).getLsbD i then 1 else 0) ∧
    (∀ i, (1 : Polynomial (ZMod 2)).coeff i = if i < 8 * [0x01#8].length ∧
      (inputByte false ([0x01#8].getD ([0x01#8].length - 1 - i / 8) 0#8)).getLsbD (i % 8) = true then 1 else 0) ∧
    (∀ i, (1 : Polynomial (ZMod 2)).coeff i = if (remAfter (1#8 : BitVec 8) false 0#8 [0x01#8]).getLsbD i then 1 else 0) := by
  have hr : remAfter (1#8 : BitVec 8) false 0#8 [0x01#8] = 1#8 := by decide
  refine ⟨fun i => by simp, coeff_one, fun i => ?_, fun i => by rw [hr]; exact coeff_one i⟩
  rw [coeff_one]
  by_cases h : i < 8
  · simp [h, Nat.div_eq_of_lt h, Nat.mod_eq_of_lt h, inputByte]
  · have h0 : i ≠ 0 := by omega
    simp [h, h0]
theorem witness_WrpolyWritesPolyAndClearsTv : [0xFF#8, 0x01#8].length = 16 / 8 := by decide
theorem witness_SelpLoadsThePresetRow : 6 ≤ (6#8 : Byte).toNat ∧ 6 ≤ (255#8 : Byte).toNat ∧
    presetRow State.reset.cfg 0#8 = some State.reset.cfg.crc8 := by decide
theorem witness_SelpIsTheFourWritesInAnyOrder : presetRow State.reset.cfg 4#8 =
      some ⟨.w16, 0x00008005#32, 0x0000FFFF#32, true, true, 0x00000000#32⟩ ∧ State.reset.rsp = none ∧
    [Instr.wrxor 0#32, .wrctl .w16 true true, .wrpoly 0x8005#32, .wrinit 0xFFFF#32].Perm
      [.wrctl .w16 true true, .wrpoly 0x8005#32, .wrinit 0xFFFF#32, .wrxor 0#32] := by decide
/-- The widths of the data-path statements, and no width. -/
theorem witness_data_path : (dvb 0#32).width = some 8 ∧ (arc 0#32).width = some 16 ∧ (crc32 0#32).width = some 32 ∧
    State.reset.width = none := by decide
theorem witness_UpdsIsOneSerialByte : (arc 0xABCD0000#32).width = some 16 ∧ low 16 (arc 0xABCD0000#32).rem = 0#16 := by decide
theorem witness_TgenBuildsTheTable : ((arc 0#32).buildTable 16).width = some 16 ∧ ((arc 0#32).buildTable 16).tableCoherent ∧
    ((arc 0#32).buildTable 16).tv = true := ⟨rfl, built_coherent _ _ rfl, State.buildTable_tv _ _⟩
theorem witness_TgenBuildsTheTable_zero : (st .w16 false false 0x10000#32 0#32 0#32 0#32).width = some 16 ∧
    low 16 (st .w16 false false 0x10000#32 0#32 0#32 0#32).poly = 0#16 := by decide
theorem witness_UpdtIsOneTableByte : (arc 0#32).width = some 16 ∧ (arc 0#32).tv = false ∧ ((arc 0#32).buildTable 16).tv = true :=
  ⟨rfl, rfl, State.buildTable_tv _ _⟩
theorem witness_ErrorsAreRaisedExactlyWhenStated : exec .init State.reset = .next (State.reset.flagError .noSel) ∧
    State.reset.err = false ∧ State.reset.ecode = .noError := ⟨rfl, rfl, rfl⟩
theorem witness_AnErrorHasNoOtherEffect : Instr.reservedE.wellFormed = false ∧ 6 ≤ (255#8 : Byte).toNat ∧
    isDataPath .tgen = true ∧ State.reset.ctrl.wsel = .unselected ∧ Instr.tgen ≠ .rdcrc := by decide
theorem witness_FirstErrorIsKept : (State.reset.flagError .noSel).err = true ∧
    exec .reserved0 (State.reset.flagError .noSel) = .next ((State.reset.flagError .noSel).flagError .illOp) := ⟨rfl, rfl⟩
theorem witness_ErrorFlagGatesNothing : Instr.rdreg .poly ≠ .rdreg .status := by decide
/-- Each register, the table and the response channel can change. -/
theorem witness_OnlyTheNamedCommandsWrite : (State.reset.setCtrl ⟨.w8, false, false⟩).ctrl ≠ State.reset.ctrl ∧
    (State.reset.setPoly 1#32).poly ≠ State.reset.poly ∧ (State.reset.setInit 1#32).init ≠ State.reset.init ∧
    (State.reset.setXorout 1#32).xorout ≠ State.reset.xorout ∧ ((arc 0#32).setRem (1#16)).rem ≠ (arc 0#32).rem ∧
    ((arc 0#32).buildTable 16).entry 1#8 ≠ (arc 0#32).entry 1#8 ∧ (State.reset.respond 0#32).rsp ≠ State.reset.rsp := by
  decide +kernel
/-- `TV` and the error flag can change. -/
theorem witness_OnlyTheNamedCommandsWrite_flags : exec .tgen (arc 0#32) = .next ((arc 0#32).buildTable 16) ∧
    ((arc 0#32).buildTable 16).tv ≠ (arc 0#32).tv ∧ exec .reservedE State.reset = .next (State.reset.flagError .illOp) ∧
    (State.reset.flagError .illOp).err ≠ State.reset.err ∧ (arc 0#32).ctrl.wsel ≠ .unselected :=
  ⟨rfl, by simp [arc, st, State.reset], rfl, by decide, by decide⟩
theorem witness_TableEntriesAndTheirLaws : (arc 1#32).width = some 16 ∧
    (st .w16 false true 0xFFFF8005#32 0#32 0#32 0#32).width = some 16 ∧
    low 16 (arc 1#32).poly = low 16 (st .w16 false true 0xFFFF8005#32 0#32 0#32 0#32).poly := by decide
theorem witness_TableValidStateMachine : ({ State.reset with input := [.reset] } : State).input = .reset :: [] ∧
    (arc 0#32).width = some 16 ∧ (arc 0#32).tv = false ∧ (∃ t, exec (.updt 0#8) (arc 0#32) = .next t) :=
  ⟨rfl, rfl, rfl, ⟨_, rfl⟩⟩
theorem witness_UpperBitsTakePartInNoComputation : (st .w16 true true 0x18005#32 0x20000#32 0x30000#32 0xFFFF0001#32).width = some 16 ∧
    isDataPath (.upds 0#8) = true ∧
    low 16 0x18005#32 = low 16 (arc 1#32).poly ∧ low 16 0x20000#32 = low 16 (arc 1#32).init ∧
    low 16 0x30000#32 = low 16 (arc 1#32).xorout ∧ low 16 0xFFFF0001#32 = low 16 (arc 1#32).rem ∧
    st .w16 true true 0x18005#32 0x20000#32 0x30000#32 0xFFFF0001#32 =
      { arc 1#32 with poly := 0x18005#32, init := 0x20000#32, xorout := 0x30000#32, rem := 0xFFFF0001#32 } := by
  refine ⟨rfl, rfl, ?_, ?_, ?_, ?_, rfl⟩ <;> decide
theorem witness_RemainderFitsTheWidth : (arc 0#32).width = some 16 ∧ Instr.init = .init := ⟨rfl, rfl⟩
theorem witness_OneResponsePerRead : exec .rdcrc (arc 0#32) = .next ((arc 0#32).respond (zext32 ((arc 0#32).crc 16))) ∧
    (arc 0#32).rsp = none := ⟨rfl, rfl⟩
theorem witness_StepRunsTheDecodedCommand : (State.reset.offer 0x700000000#36).input = .command 0x700000000#36 :: [] ∧
    (State.reset.offer 0x700000000#36).rsp = none := ⟨rfl, rfl⟩
theorem witness_AnUntakenResponseIsTheOnlyStop :
    ({ State.reset with input := [.command 0x700000000#36], rsp := some 1#32 } : State).input = .command 0x700000000#36 :: [] ∧
    ({ State.reset with input := [.command 0x700000000#36], rsp := some 1#32 } : State).rsp = some 1#32 ∧
    step { State.reset with input := [.command 0x700000000#36], rsp := some 1#32 } = .fault .responseNotTaken := ⟨rfl, rfl, rfl⟩
theorem witness_ResponsesAreHeldUntilTaken :
    ({ State.reset with input := [.takeResponse], rsp := some 1#32 } : State).rsp = some 1#32 ∧
    ({ State.reset with input := [.takeResponse] } : State).rsp = none ∧ State.reset.input = [] := ⟨rfl, rfl, rfl⟩
theorem witness_ResetEventSetsTheResetValues : ({ arc 5#32 with input := [.reset], rsp := some 1#32 } : State).input = .reset :: [] := rfl
theorem witness_StepKeepsTheInvariant : (State.reset.offer 0xB00000000#36).Inv ∧
    step (State.reset.offer 0xB00000000#36) = .next (State.reset.flagError .noSel) := by
  refine ⟨⟨tableCoherent_of_tv rfl, ⟨fun _ => rfl, fun _ => rfl⟩⟩, ?_⟩
  exact step_withFetchWord State.reset 36 0xB00000000#36 (by decide)
theorem witness_StepKeepsTheInvariant_valid_table : ((arc 0#32).buildTable 16).Inv ∧ ((arc 0#32).buildTable 16).tv = true :=
  ⟨⟨built_coherent _ _ rfl, by simp [State.errorRecordAgrees, arc, st, State.reset]⟩, State.buildTable_tv _ _⟩
theorem witness_TableContentIsNotObservable : (arc 0#32).tableCoherent ∧
    ({ arc 0#32 with tbl := Vector.replicate 256 1#32 } : State).tableCoherent :=
  ⟨tableCoherent_of_tv rfl, tableCoherent_of_tv rfl⟩
theorem witness_whole_messages : (arc 0#32).width = some 16 ∧ (arc 0#32).tableCoherent ∧ (arc 0#32).rsp = none ∧
    (crc32 0#32).width = some 32 ∧ (crc32 0#32).tableCoherent ∧ (dvb 0#32).width = some 8 ∧ (dvb 0#32).tableCoherent :=
  ⟨rfl, tableCoherent_of_tv rfl, rfl, rfl, tableCoherent_of_tv rfl, rfl, tableCoherent_of_tv rfl⟩
theorem witness_SuspendedMessageIsRestored : (arc 5#32).width = some 16 ∧ (arc 9#32).ctrl = (arc 5#32).ctrl ∧
    (arc 9#32).xorout = (arc 5#32).xorout := ⟨rfl, rfl, rfl⟩
theorem witness_SendingCommandsExecutesThem :
    ({ State.reset with input := sendAll [.selp 3#8, .init, .rdcrc] ++ [.reset] } : State).input =
      [.command 0x500000003#36, .command 0x700000000#36, .command 0xC00000000#36, .takeResponse, .reset] ∧
    State.reset.rsp = none := by decide
theorem witness_SourceFunctions : State.reset.rsp = none ∧ State.reset.cfg.crc8 = Config.crc8Default ∧ (arc 0#32).rsp = none ∧
    (arc 0#32).width = some 16 := ⟨rfl, rfl, rfl, rfl⟩

end Sys2Proof.Tests
end

section
/-! PROOFS. Widths, truncation and reflection as bits and numbers (`00_scope.md` R5 to R7). -/

namespace Sys2Proof.Machine

theorem widthOf_wselOfBits (c : BitVec 2) : widthOf (wselOfBits c) =
    if c.toNat = 1 then some 8 else if c.toNat = 2 then some 16 else if c.toNat = 3 then some 32 else none := by
  revert c
  decide

theorem toNat_low (w : Nat) (v : Word) : (low w v).toNat = v.toNat % 2 ^ w := BitVec.toNat_setWidth w v

theorem toNat_zext32 {w : Nat} (v : BitVec w) (h : w ≤ 32) : (zext32 v).toNat = v.toNat :=
  BitVec.toNat_setWidth_of_le h

/-- Settles O8, from the number each of the three functions gives. -/
theorem widthAndTruncation : Obligations.WidthAndTruncation :=
  ⟨widthOf_wselOfBits, toNat_low, fun _ v h => toNat_zext32 v h⟩

theorem getLsbD_reflect {n : Nat} (v : BitVec n) (i : Nat) :
    (reflect v).getLsbD i = (decide (i < n) && v.getLsbD (n - 1 - i)) := by
  rw [reflect, BitVec.getLsbD_reverse, BitVec.getMsbD_eq_getLsbD]

@[simp] theorem reflect_reflect {n : Nat} (v : BitVec n) : reflect (reflect v) = v := BitVec.reverse_reverse_eq

theorem reflect_xor {n : Nat} (a b : BitVec n) : reflect (a ^^^ b) = reflect a ^^^ reflect b := by
  apply BitVec.eq_of_getLsbD_eq
  intro i hi
  simp only [getLsbD_reflect, BitVec.getLsbD_xor, hi, decide_true, Bool.true_and]

/-- Settles O9: the three laws for every width, and the rule's four examples evaluated. -/
theorem reflectionReversesTheBits : Obligations.ReflectionReversesTheBits := by
  refine ⟨fun n v i hi => ?_, fun _ => reflect_reflect, fun _ => reflect_xor, ?_⟩
  · simp only [getLsbD_reflect, hi, decide_true, Bool.true_and]
  · decide +kernel

end Sys2Proof.Machine
end

section
/-! PROOFS. Decoding what was encoded, and commands from their effects: the converse of `exec_effect`, and that every command
completes. -/

namespace Sys2Proof.Machine

/-- The decoder reads from an encoded word the command it was made from, every operand whole (R46 to R48). -/
@[simp] theorem decode_encode (i : Instr) : decode (encode i) = i := by
  simp only [decode, opOf_encode, argOf_encode]
  cases i with
  | wrctl ws ri ro => cases ws <;> cases ri <;> cases ro <;> rfl
  | rdreg v => cases v <;> rfl
  | selp b | upds b | updt b =>
    have byte : (0#24 ++ b).extractLsb' 0 8 = b := BitVec.extractLsb'_append_eq_right
    simpa [opcode, operandBits] using byte
  | _ => simp [opcode, operandBits]

/-- Each effect of a command is the one `exec` has: the converse of `exec_effect`. -/
theorem exec_of_effect {i : Instr} {s t : State} (h : Effect i s t) : exec i s = .next t := by
  cases h with
  | wrctl | wrpoly | wrinit | wrxor | rdreg => rfl
  | selp s id d le row => simp only [exec, execSelp, row]
  | selpReserved s id ge => simp only [exec, execSelp, (presetRow_eq_none s.cfg id).2 ge]
  | init s w hw => exact State.onWidth_some hw _
  | seed s w v hw => exact State.onWidth_some hw _
  | upds s w b hw => exact State.onWidth_some hw _
  | updt s w b hw => exact State.onWidth_some hw _
  | tgen s w hw => exact State.onWidth_some hw _
  | rdcrc s w hw => simp only [exec, execRdcrc, hw]
  | rdcrcNoWidth s hw => simp only [exec, execRdcrc, hw]
  | noWidth i s dp ne hw =>
    cases i with
    | init | seed | upds | updt | tgen => exact State.onWidth_none hw _
    | rdcrc => exact absurd rfl ne
    | _ => cases dp
  | reserved i s r =>
    cases i with
    | reserved0 | reservedD | reservedE | reservedF => rfl
    | _ => cases r

theorem State.onWidth_completes (s : State) (f : Nat → State) : ∃ t, s.onWidth f = .next t := by
  rcases s.onWidth_cases f with ⟨_, e⟩ | ⟨_, _, e⟩ <;> exact ⟨_, e⟩

/-- Every command completes (R110): no meaning faults or is refused. -/
theorem exec_completes (i : Instr) (s : State) : ∃ t, exec i s = .next t := by
  cases i with
  | init | seed | upds | updt | tgen => exact s.onWidth_completes _
  | selp id =>
    cases hr : presetRow s.cfg id with
    | none => exact ⟨s.flagError .preset, by simp only [exec, execSelp, hr]⟩
    | some d => exact ⟨(s.loadDescriptor d).invalidateTable, by simp only [exec, execSelp, hr]⟩
  | rdcrc =>
    cases hw : s.width with
    | none => exact ⟨_, exec_of_effect (.rdcrcNoWidth s hw)⟩
    | some w => exact ⟨_, exec_of_effect (.rdcrc s w hw)⟩
  | _ => exact ⟨_, rfl⟩

/-- A command that is no read leaves the response channel alone (R25). -/
theorem Effect.rsp_eq {i : Instr} {s t : State} (h : Effect i s t) (hr : isRead i = false) : t.rsp = s.rsp := by
  cases h with
  | rdreg | rdcrc | rdcrcNoWidth => cases hr
  | _ => simp

end Sys2Proof.Machine
end

section
/-! PROOFS. The ports (`10_state.md` R24, R25): a step that accepts a command, a step that takes a response, and a whole list of
commands sent at the ports as its execution. -/

namespace Sys2Proof.Machine

/-- A command word offered while no response is held: it is consumed and runs whole. -/
theorem step_command {s : State} {w : CmdWord} {rest : List HostEvent} (hi : s.input = .command w :: rest)
    (hr : s.rsp = none) : step s = exec (decode w) { s with input := rest } := by
  simp only [step, State.nextAction, hi, hr]

/-- Settles O45: it is the rule of an accepted command. -/
theorem stepRunsTheDecodedCommand : Obligations.StepRunsTheDecodedCommand := fun _ _ _ hi hr => step_command hi hr

theorem step_takeResponse {s : State} {rest : List HostEvent} (hi : s.input = .takeResponse :: rest) :
    step s = .next ({ s with input := rest } : State).takeResponse := by
  simp only [step, State.nextAction, hi]

/-- With no response held the host takes nothing. -/
theorem State.takeResponse_of_none {s : State} (h : s.rsp = none) : s.takeResponse = s := by
  simp only [State.takeResponse, h]

/-- The first step of a run that goes on. -/
theorem run_succ_of_step {s t : State} (h : step s = .next t) (k : Nat) :
    Host.Core.run Sys2Proof.core (k + 1) s = Host.Core.run Sys2Proof.core k t := by
  simp only [Host.Core.run, Sys2Proof.core, h]

/-- The commands of a list are sent one after the other. -/
theorem sendAll_cons (i : Instr) (is : List Instr) : sendAll (i :: is) = sendAll [i] ++ sendAll is := by
  simp only [sendAll]
  split <;> rfl

/-- The same state, with `es` the host's next events, before those it still has. -/
def State.prependInput (s : State) (es : List HostEvent) : State := { s with input := es ++ s.input }

@[simp] theorem State.prependInput_nil (s : State) : s.prependInput [] = s := rfl

theorem State.prependInput_append (s : State) (es fs : List HostEvent) :
    s.prependInput (es ++ fs) = (s.prependInput fs).prependInput es := by
  simp only [State.prependInput, List.append_assoc]

theorem State.prependInput_flagError (s : State) (es : List HostEvent) (c : ErrCode) :
    (s.flagError c).prependInput es = (s.prependInput es).flagError c := by
  cases h : s.err <;> simp [State.flagError, State.prependInput, h]

theorem State.prependInput_ensureTable (s : State) (es : List HostEvent) (w : Nat) :
    (s.ensureTable w).prependInput es = (s.prependInput es).ensureTable w := by
  cases h : s.tv <;> simp [State.ensureTable, State.buildTable, State.prependInput, h]

theorem State.prependInput_takeResponse (s : State) (es : List HostEvent) :
    (s.takeResponse).prependInput es = (s.prependInput es).takeResponse := by
  cases h : s.rsp <;> simp [State.takeResponse, State.prependInput, h]

/-- What a command does is independent of what the host does after it. -/
theorem Effect.prependInput {i : Instr} {s t : State} (h : Effect i s t) (es : List HostEvent) :
    Effect i (s.prependInput es) (t.prependInput es) := by
  cases h with
  | wrctl s ws ri ro => exact .wrctl _ ws ri ro
  | wrpoly s v => exact .wrpoly _ v
  | wrinit s v => exact .wrinit _ v
  | wrxor s v => exact .wrxor _ v
  | selp s id d le row => exact .selp _ id d le row
  | selpReserved s id ge =>
    rw [State.prependInput_flagError]
    exact .selpReserved _ id ge
  | rdreg s v => cases v <;> exact .rdreg _ _
  | init s w hw => exact .init _ w hw
  | seed s w v hw => exact .seed _ w v hw
  | upds s w b hw => exact .upds _ w b hw
  | updt s w b hw =>
    have e := Effect.updt (s.prependInput es) w b hw
    rw [← State.prependInput_ensureTable] at e
    exact e
  | tgen s w hw => exact .tgen _ w hw
  | rdcrc s w hw => exact .rdcrc _ w hw
  | noWidth i s dp ne hw =>
    rw [State.prependInput_flagError]
    exact .noWidth i _ dp ne hw
  | rdcrcNoWidth s hw =>
    have e := Effect.rdcrcNoWidth (s.prependInput es) hw
    rw [← State.prependInput_flagError] at e
    exact e
  | reserved i s r =>
    rw [State.prependInput_flagError]
    exact .reserved i _ r

theorem exec_prependInput {i : Instr} {s t : State} (h : exec i s = .next t) (es : List HostEvent) :
    exec i (s.prependInput es) = .next (t.prependInput es) :=
  exec_of_effect ((exec_effect h).prependInput es)

/-- The step that accepts the word of command `i`. -/
theorem step_sent_command {i : Instr} {s t : State} (h : exec i s = .next t) (hr : s.rsp = none)
    (es : List HostEvent) :
    step (s.prependInput (.command (encode i) :: es)) = .next (t.prependInput es) := by
  have accepted := step_command (s := s.prependInput (.command (encode i) :: es)) rfl hr
  rw [accepted, decode_encode]
  exact exec_prependInput h es

theorem step_sent_takeResponse (s : State) (es : List HostEvent) :
    step (s.prependInput (.takeResponse :: es)) = .next (s.prependInput es).takeResponse :=
  step_takeResponse rfl

/-- A command sent, and its response taken if it has one, is the command executed and its response taken. -/
theorem run_send_one {i : Instr} {s t : State} (h : exec i s = .next t) (hr : s.rsp = none) (k : Nat) :
    Host.Core.run Sys2Proof.core ((sendAll [i]).length + k) (s.prependInput (sendAll [i])) =
      Host.Core.run Sys2Proof.core k t.takeResponse := by
  cases hi : isRead i with
  | false =>
    have ht : t.rsp = none := ((exec_effect h).rsp_eq hi).trans hr
    have first := step_sent_command h hr []
    simp only [sendAll, hi, Bool.false_eq_true, if_false, List.length_singleton, Nat.add_comm 1 k]
    rw [run_succ_of_step first, State.takeResponse_of_none ht, State.prependInput_nil]
  | true =>
    have first := step_sent_command h hr [.takeResponse]
    have second := step_sent_takeResponse t []
    simp only [sendAll, hi, if_true, List.length_cons, List.length_nil, Nat.add_comm _ k]
    exact (run_succ_of_step first _).trans (run_succ_of_step second k)

/-- Every command list sent from a free response channel runs to where its execution ends. -/
theorem run_sendAll (is : List Instr) (s : State) (hr : s.rsp = none) :
    ∃ t, execAll is s = .next t ∧
      Host.Core.run Sys2Proof.core (sendAll is).length (s.prependInput (sendAll is)) = .next t := by
  induction is generalizing s with
  | nil => exact ⟨s, rfl, rfl⟩
  | cons i is ih =>
    obtain ⟨t, ht⟩ := exec_completes i s
    obtain ⟨u, hall, hrun⟩ := ih t.takeResponse t.takeResponse_rsp
    refine ⟨u, by simp only [execAll, ht, hall], ?_⟩
    rw [sendAll_cons, List.length_append, State.prependInput_append,
      run_send_one (exec_prependInput ht (sendAll is)) hr, ← State.prependInput_takeResponse]
    exact hrun

/-- Settles O57, by induction on the command list (`run_sendAll`). -/
theorem sendingCommandsExecutesThem : Obligations.SendingCommandsExecutesThem := by
  intro is s rest hr hi
  have hs : s = ({ s with input := rest } : State).prependInput (sendAll is) := by
    simp only [State.prependInput, ← hi]
  obtain ⟨t, hall, hrun⟩ := run_sendAll is { s with input := rest } hr
  rw [← hs] at hrun
  exact ⟨t, hall, hrun⟩

end Sys2Proof.Machine
end

section
/-! PROOFS. Bits 31:W of `POLY`, `INIT`, `XOROUT` and `REM` take part in no computation (R6, R49): everything the data
path computes from a state is a function of the parts `State.SameLow` compares. -/

namespace Sys2Proof.Machine

/-- What the data path reads at width `w` is the same in both states; bits 31:w of the four registers may differ. -/
structure State.SameLow (w : Nat) (s t : State) : Prop where
  ctrl   : t.ctrl = s.ctrl
  tbl    : t.tbl = s.tbl
  tv     : t.tv = s.tv
  rsp    : t.rsp = s.rsp
  poly   : low w t.poly = low w s.poly
  init   : low w t.init = low w s.init
  xorout : low w t.xorout = low w s.xorout
  rem    : low w t.rem = low w s.rem

section
variable {w : Nat} {s t : State} (h : State.SameLow w s t)
include h

theorem State.SameLow.serialStep (b : Byte) : t.serialStep w b = s.serialStep w b := by
  simp only [State.serialStep, h.rem, h.poly, h.ctrl]

theorem State.SameLow.seedRem (v : Word) : t.seedRem w v = s.seedRem w v := by
  simp only [State.seedRem, h.xorout, h.ctrl]

theorem State.SameLow.crc : t.crc w = s.crc w := by
  simp only [State.crc, h.rem, h.xorout, h.ctrl]

theorem State.SameLow.tableStep (b : Byte) : t.tableStep w b = s.tableStep w b := by
  have table : t.lowTable w = s.lowTable w := by
    funext i
    simp only [State.lowTable, entry_congr h.tbl]
  simp only [State.tableStep, h.rem, h.ctrl, table]

theorem State.SameLow.buildTable : State.SameLow w (s.buildTable w) (t.buildTable w) :=
  { h with tbl := by simp only [State.buildTable_tbl, h.poly], tv := rfl }

theorem State.SameLow.ensureTable : State.SameLow w (s.ensureTable w) (t.ensureTable w) := by
  cases hv : s.tv with
  | true => simpa only [State.ensureTable, h.tv, hv, if_true] using h
  | false => simpa only [State.ensureTable, h.tv, hv, Bool.false_eq_true, if_false] using h.buildTable

theorem State.SameLow.respond (v : Word) : State.SameLow w (s.respond v) (t.respond v) := { h with rsp := rfl }

theorem State.SameLow.setRem {v u : BitVec w} (e : v = u) : State.SameLow w (s.setRem u) (t.setRem v) :=
  { h with rem := by simp only [State.setRem_rem, e] }

/-- A data-path command takes two states with the same low bits to two such states; the four commands that write `REM`
write the same 32 bits. -/
theorem State.SameLow.exec {i : Instr} (hw : s.width = some w) (dp : isDataPath i = true) :
    ∃ s' t', Machine.exec i s = .next s' ∧ Machine.exec i t = .next t' ∧ State.SameLow w s' t' ∧
      (i ≠ .rdcrc → i ≠ .tgen → t'.rem = s'.rem) := by
  have hw' : t.width = some w := (State.width_congr h.ctrl).trans hw
  cases i with
  | init =>
    exact ⟨_, _, exec_of_effect (.init s w hw), exec_of_effect (.init t w hw'), h.setRem h.init,
      fun _ _ => congrArg zext32 h.init⟩
  | seed v =>
    exact ⟨_, _, exec_of_effect (.seed s w v hw), exec_of_effect (.seed t w v hw'), h.setRem (h.seedRem v),
      fun _ _ => congrArg zext32 (h.seedRem v)⟩
  | upds b =>
    exact ⟨_, _, exec_of_effect (.upds s w b hw), exec_of_effect (.upds t w b hw'), h.setRem (h.serialStep b),
      fun _ _ => congrArg zext32 (h.serialStep b)⟩
  | updt b =>
    have step := h.ensureTable.tableStep b
    exact ⟨_, _, exec_of_effect (.updt s w b hw), exec_of_effect (.updt t w b hw'), h.ensureTable.setRem step,
      fun _ _ => congrArg zext32 step⟩
  | tgen =>
    exact ⟨_, _, exec_of_effect (.tgen s w hw), exec_of_effect (.tgen t w hw'), h.buildTable,
      fun _ ne => absurd rfl ne⟩
  | rdcrc =>
    refine ⟨_, _, exec_of_effect (.rdcrc s w hw), exec_of_effect (.rdcrc t w hw'), ?_, fun ne => absurd rfl ne⟩
    rw [h.crc]
    exact h.respond _
  | _ => cases dp

end

/-- Settles O42: the two states have the same low bits, and every data-path command keeps that (`State.SameLow.exec`). -/
theorem upperBitsTakePartInNoComputation : Obligations.UpperBitsTakePartInNoComputation := by
  intro s t w i hw dp ht hpoly hinit hxorout hrem
  have same : State.SameLow w s t :=
    { ctrl := by rw [ht], tbl := by rw [ht], tv := by rw [ht], rsp := by rw [ht]
      poly := hpoly, init := hinit, xorout := hxorout, rem := hrem }
  obtain ⟨s', t', hs, ht', low, rem⟩ := same.exec hw dp
  exact ⟨s', t', hs, ht', low.rem, low.rsp, low.tbl, rem⟩

end Sys2Proof.Machine
end

section
/-! PROOFS. The remainder as a polynomial over GF(2) (`10_state.md` R12): a bit step, a byte and a message as arithmetic in
`(ZMod 2)[X]` modulo `x^W + P`. -/

namespace Sys2Proof.Machine

open Polynomial

variable {w : Nat}

/-- The polynomial of a word: bit `i` is the coefficient of `x^i` (R12). -/
noncomputable def polyOf (v : BitVec w) : (ZMod 2)[X] :=
  ∑ i ∈ Finset.range w, if v.getLsbD i then X ^ i else 0

@[simp] theorem coeff_polyOf (v : BitVec w) (i : Nat) : (polyOf v).coeff i = if v.getLsbD i then 1 else 0 := by
  have term (j : Nat) : (if v.getLsbD j then X ^ j else 0 : (ZMod 2)[X]).coeff i =
      if i = j then (if v.getLsbD i then 1 else 0) else 0 := by
    split <;> simp +contextual [coeff_X_pow, *]
  rw [polyOf, finsetSum_coeff, Finset.sum_congr rfl (fun j _ => term j), Finset.sum_ite_eq]
  by_cases hi : i < w
  · simp [hi]
  · simp [hi, BitVec.getLsbD_of_ge v i (by omega)]

/-- A polynomial with the bits of `v` as its coefficients is `polyOf v`. -/
theorem eq_polyOf {v : BitVec w} {f : (ZMod 2)[X]} (h : ∀ i, f.coeff i = if v.getLsbD i then 1 else 0) :
    f = polyOf v := by
  ext i
  rw [h, coeff_polyOf]

theorem degree_polyOf_lt (v : BitVec w) : (polyOf v).degree < w := by
  rw [degree_lt_iff_coeff_zero]
  intro i hi
  simp [BitVec.getLsbD_of_ge v i hi]

theorem polyOf_xor (a b : BitVec w) : polyOf (a ^^^ b) = polyOf a + polyOf b := by
  ext i
  simp only [coeff_add, coeff_polyOf, BitVec.getLsbD_xor]
  cases a.getLsbD i <;> cases b.getLsbD i <;> decide

/-- Shifting left by one multiplies by `x`, less the bit shifted out, the coefficient of `x^W`. -/
theorem X_mul_polyOf (r : BitVec w) : X * polyOf r = polyOf (r <<< 1) + if r.msb then X ^ w else 0 := by
  have out (i : Nat) : (if r.msb then X ^ w else 0 : (ZMod 2)[X]).coeff i = if i = w ∧ r.msb then 1 else 0 := by
    cases r.msb <;> simp [coeff_X_pow]
  ext i
  rw [coeff_add, out, coeff_polyOf, BitVec.getLsbD_shiftLeft, BitVec.msb_eq_getLsbD_last]
  cases i with
  | zero => cases w <;> simp
  | succ i =>
    rw [coeff_X_mul, coeff_polyOf]
    rcases Nat.lt_trichotomy (i + 1) w with lt | eq | gt
    · simp [lt, lt.ne]
    · simp [← eq]
    · simp [gt.ne', gt.not_gt, BitVec.getLsbD_of_ge r i (by omega)]

/-- The polynomial of a byte on the top eight bits. -/
theorem polyOf_topByte (hw : 8 ≤ w) (d : Byte) : polyOf (topByte w d) = X ^ (w - 8) * polyOf d := by
  ext i
  rw [coeff_X_pow_mul', coeff_polyOf, coeff_polyOf, topByte, BitVec.getLsbD_shiftLeft, BitVec.getLsbD_setWidth]
  by_cases low : i < w - 8
  · simp [low, low.not_ge]
  · by_cases high : i < w
    · simp [low, high, Nat.le_of_not_lt low, show i - (w - 8) < w by omega]
    · simp [high, Nat.le_of_not_lt low, BitVec.getLsbD_of_ge d (i - (w - 8)) (by omega)]

/-- The divisor of R12 for the polynomial register `p`: the term `x^W` is implicit. -/
noncomputable def divisor (p : BitVec w) : (ZMod 2)[X] := X ^ w + polyOf p

theorem monic_divisor (p : BitVec w) : (divisor p).Monic := monic_X_pow_add (degree_polyOf_lt p)

theorem degree_divisor (p : BitVec w) : (divisor p).degree = w := by
  rw [divisor, degree_add_eq_left_of_degree_lt, degree_X_pow]
  rw [degree_X_pow]
  exact degree_polyOf_lt p

/-- A bit step multiplies by `x`, and takes the divisor away when the top bit is shifted out (R70). -/
theorem X_mul_polyOf_eq_bitStep (r p : BitVec w) :
    X * polyOf r = polyOf (bitStep r p) + if r.msb then divisor p else 0 := by
  rw [X_mul_polyOf]
  cases h : r.msb with
  | false => simp [bitStep, h]
  | true =>
    have cancel : polyOf p + polyOf p = 0 := CharTwo.add_self_eq_zero _
    simp only [bitStep, h, if_true, polyOf_xor, divisor]
    linear_combination -cancel

/-- The residue of a polynomial modulo `x^W + P`. -/
noncomputable abbrev residue (p : BitVec w) : (ZMod 2)[X] →+* AdjoinRoot (divisor p) := AdjoinRoot.mk (divisor p)

/-- A word that has the residue of `f` is the remainder of `f`: its degree is below the divisor's. -/
theorem modByMonic_eq_polyOf {f : (ZMod 2)[X]} {p v : BitVec w} (h : residue p f = residue p (polyOf v)) :
    f %ₘ divisor p = polyOf v := by
  rw [modByMonic_eq_of_dvd_sub (monic_divisor p) (AdjoinRoot.mk_eq_mk.1 h), modByMonic_eq_self_iff (monic_divisor p),
    degree_divisor]
  exact degree_polyOf_lt v

theorem residue_bitStep (r p : BitVec w) : residue p (polyOf (bitStep r p)) = residue p (X * polyOf r) := by
  rw [X_mul_polyOf_eq_bitStep r p, map_add]
  cases r.msb <;> simp

/-- Settles O19: a bit step has the residue of `x r(x)` and fewer coefficients than the divisor. -/
theorem bitStepIsPolynomialDivision : Obligations.BitStepIsPolynomialDivision := by
  intro w r p f g h hf hg hh
  rw [eq_polyOf hf, eq_polyOf hg, eq_polyOf hh]
  exact modByMonic_eq_polyOf (residue_bitStep r p).symm

theorem residue_bitSteps (p : BitVec w) (k : Nat) (r : BitVec w) :
    residue p (polyOf (bitSteps p k r)) = residue p (X ^ k * polyOf r) := by
  induction k generalizing r with
  | zero => simp [bitSteps]
  | succ k ih => rw [bitSteps, ih, map_mul, residue_bitStep, ← map_mul, ← mul_assoc, ← pow_succ]

/-- A byte step multiplies by `x^8` and adds the byte times `x^W` (R71). -/
theorem residue_byteStepSerial (hw : 8 ≤ w) (r p : BitVec w) (b : Byte) (refin : Bool) :
    residue p (polyOf (byteStepSerial r b p refin)) =
      residue p (polyOf r * X ^ 8 + polyOf (inputByte refin b) * X ^ w) := by
  have power : (X : (ZMod 2)[X]) ^ w = X ^ (w - 8) * X ^ 8 := by rw [← pow_add, Nat.sub_add_cancel hw]
  rw [byteStepSerial, residue_bitSteps, polyOf_xor, polyOf_topByte hw, power]
  congr 1
  ring

/-- The polynomial of a message: its first byte highest, each byte in the order `refin` says (`20_memory.md` R31, R32). -/
noncomputable def messagePoly (refin : Bool) : List Byte → (ZMod 2)[X]
  | [] => 0
  | b :: m => polyOf (inputByte refin b) * X ^ (8 * m.length) + messagePoly refin m

theorem coeff_messagePoly (refin : Bool) (m : List Byte) (i : Nat) : (messagePoly refin m).coeff i =
    if i < 8 * m.length ∧ (inputByte refin (m.getD (m.length - 1 - i / 8) 0#8)).getLsbD (i % 8) = true then 1 else 0 := by
  induction m with
  | nil => simp [messagePoly]
  | cons b m ih =>
    rw [messagePoly, coeff_add, ih, coeff_mul_X_pow', coeff_polyOf, List.length_cons, Nat.add_sub_cancel]
    by_cases low : i < 8 * m.length
    · have index : m.length - i / 8 = m.length - 1 - i / 8 + 1 := by omega
      rw [index, List.getD_cons_succ]
      simp [low, low.not_ge, show i < 8 * (m.length + 1) by omega]
    · by_cases high : i < 8 * (m.length + 1)
      · have index : m.length - i / 8 = 0 := by omega
        have bit : i - 8 * m.length = i % 8 := by omega
        rw [index, List.getD_cons_zero, bit]
        simp [low, high, Nat.le_of_not_lt low]
      · simp [low, high, BitVec.getLsbD_of_ge _ (i - 8 * m.length) (show 8 ≤ i - 8 * m.length by omega)]

/-- The residue after a message (R76), by induction on its bytes. -/
theorem residue_remAfter (hw : 8 ≤ w) (p : BitVec w) (refin : Bool) (m : List Byte) (r : BitVec w) :
    residue p (polyOf (remAfter p refin r m)) =
      residue p (polyOf r * X ^ (8 * m.length) + messagePoly refin m * X ^ w) := by
  induction m generalizing r with
  | nil => simp [messagePoly]
  | cons b m ih =>
    have byte := residue_byteStepSerial hw r p b refin
    rw [remAfter_cons, ih, List.length_cons, messagePoly]
    simp only [map_add, map_mul] at byte ⊢
    rw [byte, Nat.mul_succ, pow_add, map_mul]
    ring

/-- Settles O20: the remainder after the message has the residue of `r(x) x^(8n) + m(x) x^W` (`residue_remAfter`). -/
theorem messageRemainderIsPolynomialRemainder : Obligations.MessageRemainderIsPolynomialRemainder := by
  intro w r p refin m f g k h hw hf hg hk hh
  have message : k = messagePoly refin m := by
    ext i
    rw [hk, coeff_messagePoly]
  rw [eq_polyOf hf, eq_polyOf hg, eq_polyOf hh, message]
  exact modByMonic_eq_polyOf (residue_remAfter (by omega) p refin m r).symm

end Sys2Proof.Machine
end

section
/-! PROOFS. The error record `ERR` and `ECODE` (`10_state.md` R18, `60_exceptions.md` R111): its first code is kept, and it gates
no command. -/

namespace Sys2Proof.Machine

/-- A second error changes nothing (R111). -/
theorem State.flagError_of_err {s : State} (he : s.err = true) (c : ErrCode) : s.flagError c = s := by
  simp only [State.flagError, he, if_true]

/-- Once the error flag is set no command changes it or the first code (R18, R118). -/
theorem Effect.error_kept {i : Instr} {s t : State} (h : Effect i s t) (he : s.err = true) :
    t.err = true ∧ t.ecode = s.ecode := by
  cases h with
  | selpReserved | noWidth | rdcrcNoWidth | reserved =>
    rw [State.flagError_of_err he]
    exact ⟨he, rfl⟩
  | _ => simp [he]

/-- Settles O38, by the cases of a command's effect. -/
theorem firstErrorIsKept : Obligations.FirstErrorIsKept := fun _ _ _ h he => (exec_effect h).error_kept he

/-- The same state with another error record. -/
def State.withError (s : State) (e : Bool) (c : ErrCode) : State := { s with err := e, ecode := c }

/-- The error flagged in the same state with another error record. -/
theorem State.flagError_withError (s : State) (e : Bool) (c k : ErrCode) :
    (s.withError e c).flagError k = (s.flagError k).withError true (if e then c else k) := by
  rw [flagError_eq_flagged, flagError_eq_flagged]
  rfl

theorem State.ensureTable_withError (s : State) (e : Bool) (c : ErrCode) (w : Nat) :
    (s.withError e c).ensureTable w = (s.ensureTable w).withError e c := by
  cases h : s.tv <;> simp [State.ensureTable, State.buildTable, State.withError, h]

/-- The error record gates nothing (R18, R111): a command other than the read of the status word has the same effect in the
same state with another record, but for the record it leaves. -/
theorem Effect.withError {i : Instr} {s t : State} (h : Effect i s t) (ne : i ≠ .rdreg .status) (e : Bool) (c : ErrCode) :
    ∃ e' c', Effect i (s.withError e c) (t.withError e' c') := by
  cases h with
  | wrctl s ws ri ro => exact ⟨e, c, .wrctl _ ws ri ro⟩
  | wrpoly s v => exact ⟨e, c, .wrpoly _ v⟩
  | wrinit s v => exact ⟨e, c, .wrinit _ v⟩
  | wrxor s v => exact ⟨e, c, .wrxor _ v⟩
  | selp s id d le row => exact ⟨e, c, .selp _ id d le row⟩
  | selpReserved s id ge => exact ⟨true, if e then c else .preset, State.flagError_withError s e c .preset ▸ .selpReserved _ id ge⟩
  | rdreg s v =>
    cases v with
    | status => exact absurd rfl ne
    | poly | init | xorout => exact ⟨e, c, .rdreg _ _⟩
  | init s w hw => exact ⟨e, c, .init _ w hw⟩
  | seed s w v hw => exact ⟨e, c, .seed _ w v hw⟩
  | upds s w b hw => exact ⟨e, c, .upds _ w b hw⟩
  | updt s w b hw =>
    have step := Effect.updt (s.withError e c) w b hw
    rw [State.ensureTable_withError] at step
    exact ⟨e, c, step⟩
  | tgen s w hw => exact ⟨e, c, .tgen _ w hw⟩
  | rdcrc s w hw => exact ⟨e, c, .rdcrc _ w hw⟩
  | noWidth i s dp ne hw => exact ⟨true, if e then c else .noSel, State.flagError_withError s e c .noSel ▸ .noWidth i _ dp ne hw⟩
  | rdcrcNoWidth s hw =>
    have flagged := Effect.rdcrcNoWidth (s.withError e c) hw
    rw [State.flagError_withError] at flagged
    exact ⟨_, _, flagged⟩
  | reserved i s r => exact ⟨true, if e then c else .illOp, State.flagError_withError s e c .illOp ▸ .reserved i _ r⟩

/-- Settles O39: the effect in the one state is an effect in the other (`Effect.withError`). -/
theorem errorFlagGatesNothing : Obligations.ErrorFlagGatesNothing := by
  intro i s e c ne
  obtain ⟨t, ht⟩ := exec_completes i s
  obtain ⟨e', c', h⟩ := (exec_effect ht).withError ne e c
  exact ⟨t, _, ht, exec_of_effect h, rfl⟩

end Sys2Proof.Machine
end

section
/-! PROOFS. What a command may change, read off its effect: each register and the table (`10_state.md` R11 to R17), the error record
(R18), and the response channel (R25, R36). -/

namespace Sys2Proof.Machine

section
variable {i : Instr} {s t : State} (h : Effect i s t)
include h

theorem Effect.ctrl_writers (ne : t.ctrl ≠ s.ctrl) : (∃ a b c, i = .wrctl a b c) ∨ ∃ id, i = .selp id := by
  cases h with
  | wrctl => exact .inl ⟨_, _, _, rfl⟩
  | selp => exact .inr ⟨_, rfl⟩
  | _ => simp at ne

theorem Effect.poly_writers (ne : t.poly ≠ s.poly) : (∃ v, i = .wrpoly v) ∨ ∃ id, i = .selp id := by
  cases h with
  | wrpoly => exact .inl ⟨_, rfl⟩
  | selp => exact .inr ⟨_, rfl⟩
  | _ => simp at ne

theorem Effect.init_writers (ne : t.init ≠ s.init) : (∃ v, i = .wrinit v) ∨ ∃ id, i = .selp id := by
  cases h with
  | wrinit => exact .inl ⟨_, rfl⟩
  | selp => exact .inr ⟨_, rfl⟩
  | _ => simp at ne

theorem Effect.xorout_writers (ne : t.xorout ≠ s.xorout) : (∃ v, i = .wrxor v) ∨ ∃ id, i = .selp id := by
  cases h with
  | wrxor => exact .inl ⟨_, rfl⟩
  | selp => exact .inr ⟨_, rfl⟩
  | _ => simp at ne

theorem Effect.rem_writers (ne : t.rem ≠ s.rem) :
    i = .init ∨ (∃ v, i = .seed v) ∨ (∃ b, i = .upds b) ∨ ∃ b, i = .updt b := by
  cases h with
  | init | seed | upds | updt => simp
  | _ => simp at ne

theorem Effect.tbl_writers (ne : t.tbl ≠ s.tbl) : i = .tgen ∨ ∃ b, i = .updt b := by
  cases h with
  | tgen | updt => simp
  | _ => simp at ne

theorem Effect.tv_writers (ne : t.tv ≠ s.tv) :
    (∃ a b c, i = .wrctl a b c) ∨ (∃ v, i = .wrpoly v) ∨ (∃ id, i = .selp id) ∨ i = .tgen ∨ ∃ b, i = .updt b := by
  cases h with
  | wrctl | wrpoly | selp | tgen | updt => simp
  | _ => simp at ne

/-- The error record changes on the first error since reset alone, by a command in error (R111 to R114). -/
theorem Effect.error_writers (ne : t.err ≠ s.err ∨ t.ecode ≠ s.ecode) : s.err = false ∧
    (i.wellFormed = false ∨ (∃ id : Byte, i = .selp id ∧ 6 ≤ id.toNat) ∨
      (isDataPath i = true ∧ s.ctrl.wsel = .unselected)) := by
  have first : s.err = false := by
    by_contra he
    obtain ⟨err, ecode⟩ := h.error_kept (by simpa using he)
    simp_all
  refine ⟨first, ?_⟩
  cases h with
  | selpReserved s id ge => exact .inr (.inl ⟨id, rfl, ge⟩)
  | noWidth i s dp _ hw => exact .inr (.inr ⟨dp, State.width_eq_none.1 hw⟩)
  | rdcrcNoWidth s hw => exact .inr (.inr ⟨rfl, State.width_eq_none.1 hw⟩)
  | reserved i s r => exact .inl r
  | _ => simp at ne

/-- What the host and the configuration hold is no command's to change. -/
theorem Effect.ports_eq : t.input = s.input ∧ t.taken = s.taken ∧ t.cfg = s.cfg := by
  cases h <;> simp

end

theorem isRead_iff (i : Instr) : isRead i = true ↔ (∃ sel, i = .rdreg sel) ∨ i = .rdcrc := by
  cases i <;> simp [isRead]

theorem Effect.rsp_writers {i : Instr} {s t : State} (h : Effect i s t) (ne : t.rsp ≠ s.rsp) :
    (∃ sel, i = .rdreg sel) ∨ i = .rdcrc := by
  rw [← isRead_iff]
  by_contra hr
  exact ne (h.rsp_eq (by simpa using hr))

/-- `RDREG` changes the response channel alone (R36). -/
theorem Effect.rdreg_frame {v : RegView} {s t : State} (h : Effect (.rdreg v) s t) : t = { s with rsp := t.rsp } := by
  cases h with
  | rdreg => rfl
  | noWidth _ _ dp => cases dp
  | reserved _ _ r => cases r

/-- `RDCRC` changes the response channel alone, but for the error record with no width selected (R75). -/
theorem Effect.rdcrc_frame {s t : State} (h : Effect .rdcrc s t) :
    t = { s with rsp := t.rsp, err := t.err, ecode := t.ecode } ∧
      (s.ctrl.wsel ≠ .unselected → t = { s with rsp := t.rsp }) := by
  cases h with
  | rdcrc => exact ⟨rfl, fun _ => rfl⟩
  | rdcrcNoWidth _ hw =>
    rw [flagError_eq_flagged]
    exact ⟨rfl, fun ne => absurd (State.width_eq_none.1 hw) ne⟩
  | noWidth _ _ _ ne => exact absurd rfl ne
  | reserved _ _ r => cases r

/-- Settles O40: the writers of each part of the state, and the frames of the two reads. -/
theorem onlyTheNamedCommandsWrite : Obligations.OnlyTheNamedCommandsWrite := by
  intro i s t h
  have e := exec_effect h
  refine ⟨e.ctrl_writers, e.poly_writers, e.init_writers, e.xorout_writers, e.rem_writers, e.tbl_writers, e.tv_writers,
    e.error_writers, e.rsp_writers, ?_, ?_, e.ports_eq⟩
  · rintro ⟨sel, rfl⟩
    exact e.rdreg_frame
  · rintro rfl
    exact e.rdcrc_frame

/-- A read leaves a response word (R25). -/
theorem Effect.rsp_of_isRead {i : Instr} {s t : State} (h : Effect i s t) (hr : isRead i = true) :
    ∃ v, t.rsp = some v := by
  cases h with
  | rdreg | rdcrc | rdcrcNoWidth => exact ⟨_, rfl⟩
  | noWidth i _ dp ne =>
    rcases (isRead_iff i).1 hr with ⟨sel, rfl⟩ | rfl
    · cases dp
    · exact absurd rfl ne
  | reserved i _ r => rcases (isRead_iff i).1 hr with ⟨sel, rfl⟩ | rfl <;> cases r
  | _ => cases hr

/-- Settles O44: a read leaves a word, and every other command leaves the channel as it was. -/
theorem oneResponsePerRead : Obligations.OneResponsePerRead := by
  intro i s t h free
  have e := exec_effect h
  rw [← isRead_iff]
  cases hr : isRead i with
  | true => simp [e.rsp_of_isRead hr]
  | false => simp [e.rsp_eq hr, free]

end Sys2Proof.Machine
end

section
/-! PROOFS. Every step of the machine (`10_state.md` R24, R25): one equation for each event at the ports, the one stop, and the
state after reset (R23). -/

namespace Sys2Proof.Machine

section
variable {s : State}

theorem step_idle (hi : s.input = []) : step s = .next s := by
  simp only [step, State.nextAction, hi]

theorem step_reset {rest : List HostEvent} (hi : s.input = .reset :: rest) :
    step s = .next ({ s with input := rest } : State).resetEvent := by
  simp only [step, State.nextAction, hi]

theorem step_stalled {w : CmdWord} {rest : List HostEvent} {v : Word} (hi : s.input = .command w :: rest)
    (hr : s.rsp = some v) : step s = .fault .responseNotTaken := by
  simp only [step, State.nextAction, hi, hr]

/-- The host takes the response held. -/
theorem State.takeResponse_of_some {v : Word} (h : s.rsp = some v) :
    s.takeResponse = { s with rsp := none, taken := s.taken ++ [v] } := by
  simp only [State.takeResponse, h]

end

/-- A step goes on, or stops over a command that is offered while a response is held. -/
theorem step_next_or_stalled (s : State) : (∃ t, step s = .next t) ∨
    (step s = .fault .responseNotTaken ∧ (∃ w rest, s.input = .command w :: rest) ∧ ∃ v, s.rsp = some v) := by
  rcases hi : s.input with _ | ⟨w | _ | _, rest⟩
  · exact .inl ⟨_, step_idle hi⟩
  · cases hr : s.rsp with
    | none =>
      rw [step_command hi hr]
      exact .inl (exec_completes _ _)
    | some v => exact .inr ⟨step_stalled hi hr, ⟨w, rest, rfl⟩, v, rfl⟩
  · exact .inl ⟨_, step_takeResponse hi⟩
  · exact .inl ⟨_, step_reset hi⟩

/-- Settles O46: an untaken response stops the block, and `step_next_or_stalled` has no other stop. -/
theorem anUntakenResponseIsTheOnlyStop : Obligations.AnUntakenResponseIsTheOnlyStop := by
  refine ⟨fun s w rest v => step_stalled, fun s f h => ?_, fun s r h => ?_⟩
  · rcases step_next_or_stalled s with ⟨t, e⟩ | ⟨e, offered, held⟩
    · cases e.symm.trans h
    · cases e.symm.trans h
      exact ⟨rfl, offered, held⟩
  · rcases step_next_or_stalled s with ⟨t, e⟩ | ⟨e, _⟩ <;> cases e.symm.trans h

/-- Settles O47, from the steps in which no command runs. -/
theorem responsesAreHeldUntilTaken : Obligations.ResponsesAreHeldUntilTaken := by
  refine ⟨fun s rest v hi hr => ?_, fun s rest hi hr => ?_, fun s => step_idle⟩
  · exact (step_takeResponse hi).trans (congrArg _ (State.takeResponse_of_some hr))
  · exact (step_takeResponse hi).trans (congrArg _ (State.takeResponse_of_none hr))

/-- Settles O49: after reset the table is not valid and there is no error. -/
theorem resetStateHasTheInvariant : Obligations.ResetStateHasTheInvariant :=
  ⟨rfl, rfl, rfl, rfl, rfl, rfl, rfl, rfl, tableCoherent_of_tv rfl, iff_of_true rfl rfl⟩

end Sys2Proof.Machine
end

section
/-! PROOFS. The table invariant along a step (`20_memory.md` R40), and that the content of `TBL` is not observable (R16, R22): a
valid table is fixed by `CTRL` and `POLY`, and a table that is not valid is rebuilt before it is read. -/

namespace Sys2Proof.Machine

/-- Every command keeps the table invariant. -/
theorem Effect.tableCoherent {i : Instr} {s t : State} (h : Effect i s t) (hc : s.tableCoherent) : t.tableCoherent := by
  cases h with
  | wrctl | wrpoly | selp => exact tableCoherent_of_tv rfl
  | updt s w b hw =>
    have entries (i : Byte) : (s.ensureTable w).entry i = zext32 (tblgen w (low w (s.ensureTable w).poly) i) := by
      rw [State.ensureTable_poly]
      exact entry_ensureTable hw hc i
    have width : (s.ensureTable w).width = some w := (State.width_congr (s.ensureTable_ctrl w)).trans hw
    exact fun _ => ⟨w, width, entries⟩
  | tgen s w hw => exact fun _ => ⟨w, hw, entry_buildTable s w⟩
  | _ => exact tableCoherent_congr (by simp) (by simp) (by simp) (by simp) hc

/-- Every step keeps the table invariant. -/
theorem step_tableCoherent {s t : State} (h : step s = .next t) (hc : s.tableCoherent) : t.tableCoherent := by
  rcases step_next_cases h with ⟨_, rfl⟩ | ⟨rest, _, rfl⟩ | ⟨rest, _, rfl⟩ | ⟨w, rest, _, _, run⟩
  · exact hc
  · exact tableCoherent_of_tv rfl
  · exact tableCoherent_congr (by simp) (by simp) (by simp) (by simp) hc
  · exact (exec_effect run).tableCoherent hc

/-- Two valid tables for the same width and polynomial are the same table. -/
theorem tbl_eq_of_tableCoherent {s t : State} (hs : s.tableCoherent) (ht : t.tableCoherent) (sv : s.tv = true)
    (tv : t.tv = true) (hc : t.ctrl = s.ctrl) (hp : t.poly = s.poly) : t.tbl = s.tbl := by
  obtain ⟨w, hw, entries⟩ := hs sv
  obtain ⟨w', hw', entries'⟩ := ht tv
  cases (hw'.symm.trans ((State.width_congr hc).trans hw))
  exact tbl_ext fun i => by rw [entries, entries', hp]

/-- The same state with another table store. -/
def State.withTbl (s : State) (tbl : Vector Word 256) : State := { s with tbl := tbl }

theorem State.flagError_withTbl (s : State) (tbl : Vector Word 256) (c : ErrCode) :
    (s.withTbl tbl).flagError c = (s.flagError c).withTbl tbl := by
  rw [flagError_eq_flagged, flagError_eq_flagged]
  rfl

theorem State.takeResponse_withTbl (s : State) (tbl : Vector Word 256) :
    (s.withTbl tbl).takeResponse = s.takeResponse.withTbl tbl := by
  cases h : s.rsp <;> simp [State.takeResponse, State.withTbl, h]

/-- The lazy build of a table that is not valid reads nothing of the store (R86). -/
theorem State.ensureTable_withTbl {s : State} (hv : s.tv = false) (tbl : Vector Word 256) (w : Nat) :
    (s.withTbl tbl).ensureTable w = s.ensureTable w := by
  simp [State.ensureTable, State.withTbl, State.buildTable, hv]

/-- With no valid table a command has the same effect whatever the store holds, but for what the store holds after it. -/
theorem Effect.withTbl {i : Instr} {s t : State} (h : Effect i s t) (hv : s.tv = false) (tbl : Vector Word 256) :
    ∃ tbl', Effect i (s.withTbl tbl) (t.withTbl tbl') := by
  cases h with
  | wrctl s ws ri ro => exact ⟨tbl, .wrctl _ ws ri ro⟩
  | wrpoly s v => exact ⟨tbl, .wrpoly _ v⟩
  | wrinit s v => exact ⟨tbl, .wrinit _ v⟩
  | wrxor s v => exact ⟨tbl, .wrxor _ v⟩
  | selp s id d le row => exact ⟨tbl, .selp _ id d le row⟩
  | selpReserved s id ge => exact ⟨tbl, State.flagError_withTbl s tbl _ ▸ .selpReserved _ id ge⟩
  | rdreg s v => cases v <;> exact ⟨tbl, .rdreg _ _⟩
  | init s w hw => exact ⟨tbl, .init _ w hw⟩
  | seed s w v hw => exact ⟨tbl, .seed _ w v hw⟩
  | upds s w b hw => exact ⟨tbl, .upds _ w b hw⟩
  | updt s w b hw =>
    have step := Effect.updt (s.withTbl tbl) w b hw
    rw [State.ensureTable_withTbl hv] at step
    exact ⟨_, step⟩
  | tgen s w hw => exact ⟨_, .tgen _ w hw⟩
  | rdcrc s w hw => exact ⟨tbl, .rdcrc _ w hw⟩
  | noWidth i s dp ne hw => exact ⟨tbl, State.flagError_withTbl s tbl _ ▸ .noWidth i _ dp ne hw⟩
  | rdcrcNoWidth s hw =>
    have flagged := Effect.rdcrcNoWidth (s.withTbl tbl) hw
    rw [State.flagError_withTbl] at flagged
    exact ⟨tbl, flagged⟩
  | reserved i s r => exact ⟨tbl, State.flagError_withTbl s tbl _ ▸ .reserved i _ r⟩

/-- With no valid table a step that goes on does so whatever the store holds, to the same state but for the store. -/
theorem step_withTbl {s t : State} (h : step s = .next t) (hv : s.tv = false) (tbl : Vector Word 256) :
    ∃ tbl', step (s.withTbl tbl) = .next (t.withTbl tbl') := by
  rcases step_next_cases h with ⟨hi, rfl⟩ | ⟨rest, hi, rfl⟩ | ⟨rest, hi, rfl⟩ | ⟨w, rest, hi, hr, run⟩
  · exact ⟨tbl, step_idle hi⟩
  · exact ⟨_, step_reset hi⟩
  · exact ⟨tbl, State.takeResponse_withTbl { s with input := rest } tbl ▸ step_takeResponse hi⟩
  · obtain ⟨tbl', effect⟩ := (exec_effect run).withTbl hv tbl
    have accepted := step_command (s := s.withTbl tbl) hi hr
    exact ⟨tbl', accepted.trans (exec_of_effect effect)⟩

/-- The same of any store with the table invariant: a valid table leaves it no choice. -/
theorem step_withTbl_of_tableCoherent {s t : State} (h : step s = .next t) {tbl : Vector Word 256} (hs : s.tableCoherent)
    (ht : (s.withTbl tbl).tableCoherent) : ∃ tbl', step (s.withTbl tbl) = .next (t.withTbl tbl') := by
  cases hv : s.tv with
  | false => exact step_withTbl h hv tbl
  | true =>
    have same : tbl = s.tbl := tbl_eq_of_tableCoherent hs ht hv hv rfl rfl
    exact ⟨t.tbl, same ▸ h⟩

/-- Settles O51: a stall reads no table, and a step that goes on keeps the relation (`step_withTbl_of_tableCoherent`) and the
invariant (`step_tableCoherent`). -/
theorem tableContentIsNotObservable : Obligations.TableContentIsNotObservable := by
  intro s t hs ht hst
  obtain ⟨tbl, rfl⟩ : ∃ tbl, t = s.withTbl tbl := ⟨t.tbl, hst⟩
  rcases step_next_or_stalled s with ⟨s', e⟩ | ⟨e, ⟨w, rest, hi⟩, v, hr⟩
  · obtain ⟨tbl', e'⟩ := step_withTbl_of_tableCoherent e hs ht
    exact .inr ⟨s', _, e, e', step_tableCoherent e hs, step_tableCoherent e' ht, rfl⟩
  · exact .inl ⟨_, e, step_stalled hi hr⟩

end Sys2Proof.Machine
end

section
/-! PROOFS. The invariant of the machine along a step: the table invariant (`20_memory.md` R40), and the agreement of `ERR` with
`ECODE` (`10_state.md` R18, `60_exceptions.md` R111). -/

namespace Sys2Proof.Machine

theorem errorRecordAgrees_congr {s t : State} (he : t.err = s.err) (hc : t.ecode = s.ecode) (h : s.errorRecordAgrees) :
    t.errorRecordAgrees := by
  rw [State.errorRecordAgrees, he, hc]
  exact h

/-- A first error sets `ERR` with its code, and a later one changes neither (R111). -/
theorem errorRecordAgrees_flagError {s : State} {c : ErrCode} (hc : c ≠ .noError) (h : s.errorRecordAgrees) :
    (s.flagError c).errorRecordAgrees := by
  cases he : s.err with
  | true => rwa [State.flagError_of_err he]
  | false => simp [State.errorRecordAgrees, he, hc]

/-- Every command keeps `ERR` and `ECODE` in agreement. -/
theorem Effect.errorRecordAgrees {i : Instr} {s t : State} (e : Effect i s t) (h : s.errorRecordAgrees) :
    t.errorRecordAgrees := by
  cases e with
  | selpReserved | noWidth | reserved => exact errorRecordAgrees_flagError (by decide) h
  | rdcrcNoWidth => exact errorRecordAgrees_congr rfl rfl (errorRecordAgrees_flagError (c := .noSel) (by decide) h)
  | _ => exact errorRecordAgrees_congr (by simp) (by simp) h

/-- Every step keeps `ERR` and `ECODE` in agreement. -/
theorem step_errorRecordAgrees {s t : State} (e : step s = .next t) (h : s.errorRecordAgrees) : t.errorRecordAgrees := by
  rcases step_next_cases e with ⟨_, rfl⟩ | ⟨rest, _, rfl⟩ | ⟨rest, _, rfl⟩ | ⟨w, rest, _, _, run⟩
  · exact h
  · exact iff_of_true rfl rfl
  · exact errorRecordAgrees_congr (by simp) (by simp) h
  · exact (exec_effect run).errorRecordAgrees h

/-- Settles O50: a step keeps each part of the invariant, the table's (`step_tableCoherent`) and the error record's
(`step_errorRecordAgrees`). -/
theorem stepKeepsTheInvariant : Obligations.StepKeepsTheInvariant := fun _ _ ⟨table, record⟩ h =>
  ⟨step_tableCoherent h table, step_errorRecordAgrees h record⟩

end Sys2Proof.Machine
end

section
/-! PROOFS. The CRC of a message followed by its own CRC (`20_memory.md` R33): as a message the CRC bytes are the polynomial of the
remainder plus that of the final XOR value, so the remainder cancels, and what is
left is `W` bit steps of that value. -/

namespace Sys2Proof.Machine

open Polynomial

variable {w n : Nat}

@[simp] theorem length_bytesLowFirst (n : Nat) (v : Word) : (bytesLowFirst n v).length = n := by
  induction n generalizing v with
  | zero => rfl
  | succ n ih => simp only [bytesLowFirst, List.length_cons, ih]

@[simp] theorem length_bytesHighFirst (n : Nat) (v : Word) : (bytesHighFirst n v).length = n := by
  rw [bytesHighFirst, List.length_reverse, length_bytesLowFirst]

/-- Byte `k` of the low-byte-first order holds the bits of the word from `8k` on. -/
theorem getLsbD_bytesLowFirst (v : Word) {k j : Nat} (hk : k < n) (hj : j < 8) :
    ((bytesLowFirst n v).getD k 0#8).getLsbD j = v.getLsbD (8 * k + j) := by
  induction n generalizing v k with
  | zero => omega
  | succ n ih =>
    cases k with
    | zero => simp [bytesLowFirst, hj]
    | succ k =>
      rw [bytesLowFirst, List.getD_cons_succ, ih _ (by omega), BitVec.getLsbD_ushiftRight]
      congr 1
      omega

/-- Byte `k` from the end of the high-byte-first order is byte `k` of the other. -/
theorem getD_bytesHighFirst (v : Word) {k : Nat} (hk : k < n) :
    (bytesHighFirst n v).getD (n - 1 - k) 0#8 = (bytesLowFirst n v).getD k 0#8 := by
  have index : n - 1 - (n - 1 - k) = k := by omega
  rw [bytesHighFirst, List.getD_eq_getElem?_getD, List.getD_eq_getElem?_getD,
    List.getElem?_reverse (by rw [length_bytesLowFirst]; omega), length_bytesLowFirst, index]

theorem getLsbD_zext32 (hw : w ≤ 32) (v : BitVec w) (i : Nat) : (zext32 v).getLsbD i = v.getLsbD i := by
  rw [zext32, BitVec.getLsbD_setWidth]
  by_cases hi : i < 32
  · simp [hi]
  · simp [BitVec.getLsbD_of_ge v i (by omega)]

/-- A message of `w` bits is the polynomial of the word it spells, its first byte highest. -/
theorem messagePoly_eq_polyOf {refin : Bool} {m : List Byte} {v : BitVec w} (hm : 8 * m.length = w)
    (h : ∀ i < w, (inputByte refin (m.getD (m.length - 1 - i / 8) 0#8)).getLsbD (i % 8) = v.getLsbD i) :
    messagePoly refin m = polyOf v := by
  ext i
  rw [coeff_messagePoly, coeff_polyOf, hm]
  by_cases hi : i < w
  · rw [h i hi]
    simp only [hi, true_and]
  · simp [hi, BitVec.getLsbD_of_ge v i (by omega)]

/-- A reflected word, low byte first, spells the word for a reflecting engine. -/
theorem messagePoly_bytesLowFirst_reflect (hn : 8 * n = w) (hw : w ≤ 32) (v : BitVec w) :
    messagePoly true (bytesLowFirst n (zext32 (reflect v))) = polyOf v := by
  refine messagePoly_eq_polyOf (by rw [length_bytesLowFirst, hn]) fun i hi => ?_
  have bit : 8 * (n - 1 - i / 8) + (8 - 1 - i % 8) = w - 1 - i := by omega
  have back : w - 1 - (w - 1 - i) = i := by omega
  rw [length_bytesLowFirst, inputByte, if_pos rfl, getLsbD_reflect, getLsbD_bytesLowFirst _ (by omega) (by omega), bit,
    getLsbD_zext32 hw, getLsbD_reflect, back]
  simp [show i % 8 < 8 by omega, show w - 1 - i < w by omega]

/-- A word, high byte first, spells the word for an engine that does not reflect. -/
theorem messagePoly_bytesHighFirst (hn : 8 * n = w) (hw : w ≤ 32) (v : BitVec w) :
    messagePoly false (bytesHighFirst n (zext32 v)) = polyOf v := by
  refine messagePoly_eq_polyOf (by rw [length_bytesHighFirst, hn]) fun i hi => ?_
  rw [length_bytesHighFirst, getD_bytesHighFirst _ (by omega)]
  calc ((bytesLowFirst n (zext32 v)).getD (i / 8) 0#8).getLsbD (i % 8)
      = (zext32 v).getLsbD (8 * (i / 8) + i % 8) := getLsbD_bytesLowFirst _ (by omega) (by omega)
    _ = v.getLsbD i := by rw [Nat.div_add_mod, getLsbD_zext32 hw]

theorem polyOf_injective : Function.Injective (polyOf : BitVec w → (ZMod 2)[X]) := by
  intro a b h
  apply BitVec.eq_of_getLsbD_eq
  intro i _
  have bit : (polyOf a).coeff i = (polyOf b).coeff i := by rw [h]
  rw [coeff_polyOf, coeff_polyOf] at bit
  cases ha : a.getLsbD i <;> cases hb : b.getLsbD i <;> simp [ha, hb] at bit ⊢

/-- Words with the same residue are the same word. -/
theorem eq_of_residue_eq {p a b : BitVec w} (h : residue p (polyOf a) = residue p (polyOf b)) : a = b :=
  polyOf_injective ((modByMonic_eq_polyOf rfl).symm.trans (modByMonic_eq_polyOf h))

/-- A message that spells the word `v` goes into the remainder all at once: `W` bit steps from `r ^^^ v`. -/
theorem remAfter_of_messagePoly (hw : 8 ≤ w) {refin : Bool} {m : List Byte} (hm : 8 * m.length = w) (p r : BitVec w)
    {v : BitVec w} (hv : messagePoly refin m = polyOf v) : remAfter p refin r m = bitSteps p w (r ^^^ v) := by
  apply eq_of_residue_eq (p := p)
  calc residue p (polyOf (remAfter p refin r m))
      = residue p (polyOf r * X ^ w + polyOf v * X ^ w) := by rw [residue_remAfter hw, hm, hv]
    _ = residue p (X ^ w * polyOf (r ^^^ v)) := by rw [polyOf_xor, mul_add, mul_comm (X ^ w), mul_comm (X ^ w)]
    _ = residue p (polyOf (bitSteps p w (r ^^^ v))) := (residue_bitSteps p w _).symm

/-- R33 for a reflected descriptor of any width and final XOR value, the CRC low byte first. -/
theorem crcRef_append_own_crc_reflected (h8 : 8 ≤ w) (hn : 8 * n = w) (hw : w ≤ 32) (m : List Byte) (p i x : BitVec w) :
    crcRef (m ++ bytesLowFirst n (zext32 (crcRef m p i true true x))) p i true true x =
      finalize (bitSteps p w (reflect x)) true x := by
  let r := remAfter p true i m
  have crc : crcRef m p i true true x = reflect (r ^^^ reflect x) := by
    rw [reflect_xor, reflect_reflect, crcRef, finalize, if_pos rfl]
  have frame : remAfter p true r (bytesLowFirst n (zext32 (crcRef m p i true true x))) = bitSteps p w (reflect x) := by
    rw [crc, remAfter_of_messagePoly h8 (by rw [length_bytesLowFirst, hn]) p r
      (messagePoly_bytesLowFirst_reflect hn hw _), ← BitVec.xor_assoc, BitVec.xor_self, BitVec.zero_xor]
  rw [crcRef, remAfter_append, frame]

/-- R33 for an unreflected descriptor of any width and final XOR value, the CRC high byte first. -/
theorem crcRef_append_own_crc_unreflected (h8 : 8 ≤ w) (hn : 8 * n = w) (hw : w ≤ 32) (m : List Byte) (p i x : BitVec w) :
    crcRef (m ++ bytesHighFirst n (zext32 (crcRef m p i false false x))) p i false false x =
      finalize (bitSteps p w x) false x := by
  let r := remAfter p false i m
  have crc : crcRef m p i false false x = r ^^^ x := rfl
  have frame : remAfter p false r (bytesHighFirst n (zext32 (crcRef m p i false false x))) = bitSteps p w x := by
    rw [crc, remAfter_of_messagePoly h8 (by rw [length_bytesHighFirst, hn]) p r
      (messagePoly_bytesHighFirst hn hw _), ← BitVec.xor_assoc, BitVec.xor_self, BitVec.zero_xor]
  rw [crcRef, remAfter_append, frame]

/-- Nothing is left where there is no final XOR value. -/
theorem finalize_bitSteps_zero (p : BitVec w) (refout : Bool) : finalize (bitSteps p w 0#w) refout 0#w = 0#w := by
  cases refout <;> simp [finalize]

/-- What is left of the final XOR value of CRC-32. -/
theorem finalize_bitSteps_crc32 :
    finalize (bitSteps 0x04C11DB7#32 32 (reflect 0xFFFFFFFF#32)) true 0xFFFFFFFF#32 = 0x2144DF1C#32 := by
  decide +kernel

/-- Settles O21: what the frame leaves is `W` bit steps of the final XOR value (`crcRef_append_own_crc_reflected`,
`crcRef_append_own_crc_unreflected`); one byte is in both orders. -/
theorem frameWithItsOwnCrcHasAConstantCrc : Obligations.FrameWithItsOwnCrcHasAConstantCrc := by
  refine ⟨fun m p i => ?_, fun m p i => ?_, fun m p i => ?_, fun m => ?_⟩
  · rw [crcRef_append_own_crc_reflected (by decide) (by decide) (by decide), reflect_zero, finalize_bitSteps_zero]
  · rw [crcRef_append_own_crc_unreflected (by decide) (by decide) (by decide), finalize_bitSteps_zero]
  · exact (crcRef_append_own_crc_unreflected (n := 1) (by decide) (by decide) (by decide) m p i 0#8).trans
      (finalize_bitSteps_zero p false)
  · have frame := crcRef_append_own_crc_reflected (n := 4) (by decide) (by decide) (by decide) m 0x04C11DB7#32
      0xFFFFFFFF#32 0xFFFFFFFF#32
    rw [zext32, BitVec.setWidth_eq] at frame
    exact frame.trans finalize_bitSteps_crc32

end Sys2Proof.Machine
end

section
/-! PROOFS. The command word (`30_encoding.md` R46 to R51): what each opcode decodes to, and that decoding keeps of a word its
`op` and the bits of `arg` the command's format uses. -/

namespace Sys2Proof
section
variable (arg : Word)

@[simp] theorem decode_reserved0 : decode (0x0#4 ++ arg) = .reserved0 := by simp [decode]
@[simp] theorem decode_wrctl : decode (0x1#4 ++ arg) =
    .wrctl (wselOfBits (arg.extractLsb' 0 2)) (arg.getLsbD 2) (arg.getLsbD 3) := by simp [decode]
@[simp] theorem decode_wrpoly : decode (0x2#4 ++ arg) = .wrpoly arg := by simp [decode]
@[simp] theorem decode_wrinit : decode (0x3#4 ++ arg) = .wrinit arg := by simp [decode]
@[simp] theorem decode_wrxor : decode (0x4#4 ++ arg) = .wrxor arg := by simp [decode]
@[simp] theorem decode_selp : decode (0x5#4 ++ arg) = .selp (arg.extractLsb' 0 8) := by simp [decode]
@[simp] theorem decode_rdreg : decode (0x6#4 ++ arg) = .rdreg (viewOfBits (arg.extractLsb' 0 2)) := by simp [decode]
@[simp] theorem decode_init : decode (0x7#4 ++ arg) = .init := by simp [decode]
@[simp] theorem decode_seed : decode (0x8#4 ++ arg) = .seed arg := by simp [decode]
@[simp] theorem decode_upds : decode (0x9#4 ++ arg) = .upds (arg.extractLsb' 0 8) := by simp [decode]
@[simp] theorem decode_updt : decode (0xA#4 ++ arg) = .updt (arg.extractLsb' 0 8) := by simp [decode]
@[simp] theorem decode_tgen : decode (0xB#4 ++ arg) = .tgen := by simp [decode]
@[simp] theorem decode_rdcrc : decode (0xC#4 ++ arg) = .rdcrc := by simp [decode]
@[simp] theorem decode_reservedD : decode (0xD#4 ++ arg) = .reservedD := by simp [decode]
@[simp] theorem decode_reservedE : decode (0xE#4 ++ arg) = .reservedE := by simp [decode]
@[simp] theorem decode_reservedF : decode (0xF#4 ++ arg) = .reservedF := by simp [decode]

end

/-- Every opcode is that of some command (R47, R50). -/
theorem exists_opcode_eq (op : BitVec 4) : ∃ i, opcode i = op := by
  have listed : ∀ op : BitVec 4, ∃ r ∈ opcodeTable, opcode (decode r.pattern) = op := by decide
  obtain ⟨r, -, hr⟩ := listed op
  exact ⟨_, hr⟩

theorem opcode_decode_append (i : Instr) (arg : Word) : opcode (decode (opcode i ++ arg)) = opcode i := by
  cases i <;> simp [opcode]

theorem usedArg_decode_append (i : Instr) (arg : Word) : usedArg (decode (opcode i ++ arg)) = usedArg i := by
  cases i <;> simp [opcode, usedArg]

/-- The low `k` bits of a word, its other bits cleared. -/
theorem zero_append_extractLsb' (m k : Nat) (v : BitVec (m + k)) :
    0#m ++ v.extractLsb' 0 k = v &&& BitVec.ofNat (m + k) (2 ^ k - 1) := by
  apply BitVec.eq_of_getLsbD_eq
  intro j hj
  simp only [BitVec.getLsbD_append, BitVec.getLsbD_and, BitVec.getLsbD_ofNat, Nat.testBit_two_pow_sub_one]
  by_cases hk : j < k <;> simp [hk, hj]

/-- The four fields of `WRCTL`, back at their places. -/
theorem wrctl_fields (v : Word) :
    (0#28 ++ BitVec.ofBool (v.getLsbD 3) ++ BitVec.ofBool (v.getLsbD 2) ++ v.extractLsb' 0 2 : Word) =
      v &&& 0x0000000F#32 := by
  have low : 0#28 ++ v.extractLsb' 0 4 = v &&& 0x0000000F#32 := zero_append_extractLsb' 28 4 v
  rw [← low]
  apply BitVec.eq_of_getLsbD_eq
  intro j hj
  simp only [BitVec.getLsbD_append]
  match j with
  | 0 | 1 | 2 | 3 => simp
  | j + 4 => simp

/-- An operand takes back to `arg` the bits its format reads, and no other (R48). -/
theorem operandBits_decode_append (i : Instr) (arg : Word) :
    operandBits (decode (opcode i ++ arg)) = arg &&& usedArg i := by
  have all : arg = arg &&& 0xFFFFFFFF#32 := (BitVec.and_allOnes (x := arg)).symm
  have byte : (0#24 ++ arg.extractLsb' 0 8 : Word) = arg &&& 0x000000FF#32 := zero_append_extractLsb' 24 8 arg
  have selector : (0#30 ++ arg.extractLsb' 0 2 : Word) = arg &&& 0x00000003#32 := zero_append_extractLsb' 30 2 arg
  cases i with
  | wrctl => simpa only [opcode, decode_wrctl, operandBits, usedArg, wselToBits_ofBits] using wrctl_fields arg
  | rdreg => simpa only [opcode, decode_rdreg, operandBits, usedArg, viewToBits_ofBits] using selector
  | selp | upds | updt => simpa only [opcode, decode_selp, decode_upds, decode_updt, operandBits, usedArg] using byte
  | wrpoly | wrinit | wrxor | seed => simpa [opcode, operandBits, usedArg] using all
  | _ => simp [opcode, operandBits, usedArg]

/-- What a word decodes to has the word's `op` (R46). -/
theorem opcode_decode (w : CmdWord) : opcode (decode w) = opOf w := by
  obtain ⟨i, hi⟩ := exists_opcode_eq (opOf w)
  rw [← opOf_append_argOf w, ← hi, opcode_decode_append, opOf_append]

/-- The format of what a word decodes to is fixed by `op` alone (R47). -/
theorem usedArg_decode {w : CmdWord} {i : Instr} (h : opcode i = opOf w) : usedArg (decode w) = usedArg i := by
  rw [← opOf_append_argOf w, ← h, usedArg_decode_append]

/-- A decoded word encodes to its `op` and the bits of its `arg` that the format uses. -/
theorem encode_decode (w : CmdWord) : encode (decode w) = opOf w ++ (argOf w &&& usedArg (decode w)) := by
  obtain ⟨i, hi⟩ := exists_opcode_eq (opOf w)
  have operand := operandBits_decode_append i (argOf w)
  rw [hi, opOf_append_argOf] at operand
  rw [encode, opcode_decode, operand, usedArg_decode hi]

/-- A word that has no bit outside a mask is kept whole by it. -/
theorem and_eq_self_of_and_not {n : Nat} {v mask : BitVec n} (h : v &&& ~~~mask = 0#n) : v &&& mask = v := by
  calc v &&& mask = (v &&& mask) ||| (v &&& ~~~mask) := by rw [h, BitVec.or_zero]
    _ = v := by rw [← BitVec.and_or_distrib_left, BitVec.or_not_self, BitVec.and_allOnes]

/-- Settles O1: it is `Machine.decode_encode`, the law by which a command sent at the ports is the command that runs. -/
theorem decodeOfEncodeIsTheCommand : Obligations.DecodeOfEncodeIsTheCommand := Machine.decode_encode

/-- Settles O2: where the reserved bits are zero, `arg` is the bits the format uses (`encode_decode`). -/
theorem encodeOfDecodeIsTheAssemblerWord : Obligations.EncodeOfDecodeIsTheAssemblerWord := by
  intro w h
  have clean : argOf w &&& ~~~usedArg (decode w) = 0#32 := by simpa only [reservedBitsZero, beq_iff_eq] using h
  rw [encode_decode, and_eq_self_of_and_not clean, opOf_append_argOf]

/-- Settles O3: the two commands have the same encoding (`encode_decode`). -/
theorem reservedArgumentBitsAreIgnored : Obligations.ReservedArgumentBitsAreIgnored := by
  intro v w op used
  change opOf v = opOf w at op
  change argOf v &&& usedArg (decode v) = argOf w &&& usedArg (decode v) at used
  have format : usedArg (decode w) = usedArg (decode v) := usedArg_decode ((opcode_decode v).trans op)
  have same : encode (decode v) = encode (decode w) := by rw [encode_decode, encode_decode, op, used, format]
  rw [← Machine.decode_encode (decode v), same, Machine.decode_encode]

/-- A word is of a row of the opcode table by its `op` alone (R46). -/
theorem ofRow_of_mem {r : OpRow} (h : r ∈ opcodeTable) (w : CmdWord) : ofRow r w = (opOf r.pattern == opOf w) := by
  have columns : ∀ r ∈ opcodeTable, r.mask = 0xF#4 ++ 0#32 ∧ r.pattern = opOf r.pattern ++ 0#32 := by decide
  obtain ⟨mask, pattern⟩ := columns r h
  have masked : w &&& r.mask = opOf w ++ 0#32 := by
    rw [mask, ← opOf_append_argOf w, BitVec.and_append, opOf_append, BitVec.and_zero]
    exact congrArg (· ++ 0#32) BitVec.and_allOnes
  rw [Bool.eq_iff_iff, ofRow, masked, beq_iff_eq, beq_iff_eq]
  constructor
  · intro same
    rw [← same, opOf_append]
  · intro same
    rw [pattern, same]

theorem rows_of_opcode (i : Instr) :
    (opcodeTable.filter (fun r => opOf r.pattern == opcode i)).map OpRow.mnemonic = [mnemonic i] := by
  cases i <;> rfl

/-- Settles O4: the rows are picked by `op` (`ofRow_of_mem`), which is the opcode of the decoded command. -/
theorem everyWordIsOfItsTableRowOnly : Obligations.EveryWordIsOfItsTableRowOnly := by
  intro w
  rw [List.filter_congr fun r h => ofRow_of_mem h w, ← opcode_decode, rows_of_opcode]

theorem wselOfBits_eq (c : BitVec 2) : (c.toNat = 0 → wselOfBits c = .unselected) ∧ (c.toNat = 1 → wselOfBits c = .w8) ∧
    (c.toNat = 2 → wselOfBits c = .w16) ∧ (c.toNat = 3 → wselOfBits c = .w32) := by
  revert c
  decide

theorem viewOfBits_eq (c : BitVec 2) : (c.toNat = 0 → viewOfBits c = .status) ∧ (c.toNat = 1 → viewOfBits c = .poly) ∧
    (c.toNat = 2 → viewOfBits c = .init) ∧ (c.toNat = 3 → viewOfBits c = .xorout) := by
  revert c
  decide

theorem toNat_extractLsb'_zero (arg : Word) (k : Nat) : (arg.extractLsb' 0 k).toNat = arg.toNat % 2 ^ k := by
  rw [BitVec.extractLsb'_toNat, Nat.shiftRight_zero]

/-- Settles O5: the equation of each opcode, and each field as the number its bits are. -/
theorem opcodesAndFieldsAreRead : Obligations.OpcodesAndFieldsAreRead := by
  intro arg
  have code : (arg.extractLsb' 0 2).toNat = arg.toNat % 4 := toNat_extractLsb'_zero arg 2
  have byte : (arg.extractLsb' 0 8).toNat = arg.toNat % 256 := toNat_extractLsb'_zero arg 8
  have wsel := wselOfBits_eq (arg.extractLsb' 0 2)
  have view := viewOfBits_eq (arg.extractLsb' 0 2)
  rw [code] at wsel view
  exact ⟨⟨_, decode_wrctl arg, wsel⟩, decode_wrpoly arg, decode_wrinit arg, decode_wrxor arg,
    ⟨_, decode_selp arg, byte⟩, ⟨_, decode_rdreg arg, view⟩, decode_init arg, decode_seed arg,
    ⟨_, decode_upds arg, byte⟩, ⟨_, decode_updt arg, byte⟩, decode_tgen arg, decode_rdcrc arg,
    decode_reserved0 arg, decode_reservedD arg, decode_reservedE arg, decode_reservedF arg⟩

/-- Settles O6: every line of R56 evaluated. -/
theorem workedEncodings : Obligations.WorkedEncodings := by
  unfold Obligations.WorkedEncodings
  decide

end Sys2Proof
end

section
/-! PROOFS. The lines of the assembler (`30_encoding.md` R54, R55) and the commands they stand for. -/

namespace Sys2Proof.Machine

/-- An operand lies within the bits its format uses (R48), as decoding the encoded command keeps all of it. -/
theorem operandBits_and_usedArg (i : Instr) : operandBits i &&& usedArg i = operandBits i := by
  have kept := congrArg argOf (encode_decode (encode i))
  rw [decode_encode, argOf_append, argOf_encode] at kept
  exact kept.symm

theorem reservedBitsZero_encode (i : Instr) : reservedBitsZero (encode i) = true := by
  rw [reservedBitsZero, decode_encode, argOf_encode, ← operandBits_and_usedArg, BitVec.and_assoc]
  simp

theorem wellFormed_of_mem_msg {e : Engine} {m : List Byte} {i : Instr} (h : i ∈ msg e m) : i.wellFormed = true := by
  obtain ⟨b, -, rfl⟩ := List.mem_map.1 h
  cases e <;> rfl

/-- No line stands for a reserved opcode (R50). -/
theorem wellFormed_of_mem_expand {l : AsmLine} {i : Instr} (h : i ∈ expand l) : i.wellFormed = true := by
  cases l with
  | msgs bs | msgt bs => exact wellFormed_of_mem_msg h
  | _ =>
    obtain rfl := List.mem_singleton.1 h
    rfl

theorem assemble_of_wellFormed {l : AsmLine} {is : List Instr} (h : l.wellFormed = true) (he : expand l = is) :
    assemble l = .ok is := by
  rw [assemble, if_pos h, he]

/-- The numbers of a message's bytes fit, and read back they are the message. -/
theorem all_toNat_lt (bs : List Byte) : (bs.map BitVec.toNat).all (fun b => decide (b < 2 ^ 8)) = true := by
  rw [List.all_map, List.all_eq_true]
  exact fun b _ => decide_eq_true b.isLt

theorem map_ofNat_toNat (bs : List Byte) : (bs.map BitVec.toNat).map (BitVec.ofNat 8) = bs := by
  rw [List.map_map, List.map_id'' fun b => BitVec.ofNat_toNat ..]

/-- Settles O7: an accepted line is what it expands to (`assemble_of_wellFormed`), an expansion is defined commands, and the
encoder sets no reserved bit (`reservedBitsZero_encode`). -/
theorem assembledLinesAreCleanCommands : Obligations.AssembledLinesAreCleanCommands := by
  refine ⟨fun l h => ?_, fun l h => ?_, fun ws refin refout => ?_, fun v => ?_, fun b => ?_, ?_, ?_, fun bs => ?_,
    fun bs => ?_⟩
  · rw [assemble, h, if_neg Bool.false_ne_true]
  · exact ⟨expand l, assemble_of_wellFormed h rfl,
      fun i hi => ⟨wellFormed_of_mem_expand hi, reservedBitsZero_encode i⟩⟩
  · cases ws <;> cases refin <;> cases refout <;> rfl
  · have fits : decide (v.toNat < 2 ^ 32) = true := decide_eq_true v.isLt
    have back : BitVec.ofNat 32 v.toNat = v := by rw [BitVec.ofNat_toNat, BitVec.setWidth_eq]
    exact ⟨assemble_of_wellFormed fits (by rw [expand, back]), assemble_of_wellFormed fits (by rw [expand, back]),
      assemble_of_wellFormed fits (by rw [expand, back]), assemble_of_wellFormed fits (by rw [expand, back])⟩
  · have fits : decide (b.toNat < 2 ^ 8) = true := decide_eq_true b.isLt
    have back : BitVec.ofNat 8 b.toNat = b := by rw [BitVec.ofNat_toNat, BitVec.setWidth_eq]
    exact ⟨assemble_of_wellFormed fits (by rw [expand, back]), assemble_of_wellFormed fits (by rw [expand, back]),
      assemble_of_wellFormed fits (by rw [expand, back])⟩
  · exact ⟨rfl, rfl, rfl, rfl⟩
  · exact ⟨rfl, rfl, rfl⟩
  · exact assemble_of_wellFormed (all_toNat_lt bs) (by rw [expand, map_ofNat_toNat]; rfl)
  · exact assemble_of_wellFormed (all_toNat_lt bs) (by rw [expand, map_ofNat_toNat]; rfl)

end Sys2Proof.Machine
end

section
/-! PROOFS. The text of an assembler line (`30_encoding.md` R54, R55): numbers, the tokens of each form of line, and the line
the tokens are. -/

namespace Sys2Proof.Machine

/-! ### Numbers -/

/-- A string of digit characters has the value of its digits. -/
theorem digits_map {base : Nat} {f : Fin base → Char} (hf : ∀ d, digit base (f d) = some d.val) (ds : List (Fin base))
    (k : Nat) : digits base (ds.map f) k = some (ds.foldl (fun n d => n * base + d.val) k) := by
  induction ds generalizing k with
  | nil => rfl
  | cons d ds ih => rw [List.map_cons, digits, hf, Option.bind_some, ih, List.foldl_cons]

/-- A string of decimal digits is a number: it has no `x`, so it is no hexadecimal one. -/
theorem number_of_digits {cs : List Char} {n : Nat} (hne : cs ≠ []) (h : digits 10 cs 0 = some n) : number cs = some n := by
  unfold number
  split
  case h_1 => exact absurd rfl hne
  case h_2 | h_3 => cases h
  case h_4 => exact h

theorem number_hex {cs : List Char} (hne : cs ≠ []) : number ('0' :: 'x' :: cs) = digits 16 cs 0 := by
  cases cs with
  | nil => exact absurd rfl hne
  | cons c cs => rfl

/-- A number is no name: a name begins with a letter. -/
theorem ofList_ne_of_number {cs : List Char} {n : Nat} (h : number cs = some n) {name : String} {c : Char} {rest : List Char}
    (hname : name.toList = c :: rest) (hc : digit 10 c = none) : String.ofList cs ≠ name := by
  rintro rfl
  rw [String.toList_ofList] at hname
  exact number_ne h hc hname

theorem presetOperand_of_number {cs : List Char} {n : Nat} (h : number cs = some n) : presetOperand cs = some n := by
  unfold presetOperand
  split
  case h_7 => exact h
  all_goals exact absurd ‹String.ofList cs = _› (ofList_ne_of_number h rfl rfl)

theorem viewOperand_of_number {cs : List Char} {n : Nat} (h : number cs = some n) : viewOperand cs = some n := by
  unfold viewOperand
  split
  case h_5 => exact h
  all_goals exact absurd ‹String.ofList cs = _› (ofList_ne_of_number h rfl rfl)

theorem keyed_append {cs : List Char} {n : Nat} (key : List Char) (h : number cs = some n) :
    keyed key (key ++ ['='] ++ cs) = some n := by
  have hlen : key.length + 1 = (key ++ ['=']).length := by rw [List.length_append, List.length_singleton]
  rw [keyed, hlen, List.take_left' rfl, List.drop_left' rfl, if_pos (beq_self_eq_true _), h]

/-! ### Tokens -/

/-- The text is one word: not empty, and plain throughout. -/
def isWord (cs : List Char) : Bool := !cs.isEmpty && cs.all plain

theorem isWord_iff {cs : List Char} : isWord cs = true ↔ cs ≠ [] ∧ cs.all plain = true := by
  cases cs <;> simp [isWord]

theorem isWord_of_number {cs : List Char} {n : Nat} (h : number cs = some n) : isWord cs = true := by
  obtain ⟨hne, hplain, -⟩ := number_some h
  exact isWord_iff.2 ⟨hne, hplain⟩

theorem isWord_append {cs ds : List Char} (hc : isWord cs = true) (hd : isWord ds = true) : isWord (cs ++ ds) = true := by
  obtain ⟨hne, hcs⟩ := isWord_iff.1 hc
  obtain ⟨-, hds⟩ := isWord_iff.1 hd
  exact isWord_iff.2 ⟨List.append_ne_nil_of_left_ne_nil hne ds, by rw [List.all_append, hcs, hds]; rfl⟩

theorem presetOperand_name : ∀ x ∈ [("CRC8", 0), ("CRC8_DVBS2", 1), ("CRC16_CCITT", 2), ("CRC16_ARC", 3),
    ("CRC16_MODBUS", 4), ("CRC32", 5)], isWord x.1.toList = true ∧ presetOperand x.1.toList = some x.2 := by decide

theorem viewOperand_name : ∀ x ∈ [("STATUS", 0), ("POLY", 1), ("INIT", 2), ("XOROUT", 3)],
    isWord x.1.toList = true ∧ viewOperand x.1.toList = some x.2 := by decide

theorem lineEnd_replicate_append (k : Nat) {c : List Char} (hc : c = [] ∨ c.head? = some ';') :
    lineEnd (List.replicate k ' ' ++ c) = true := by
  induction k with
  | zero =>
    rcases hc with rfl | hc
    · rfl
    · obtain ⟨rest, rfl⟩ := List.head?_eq_some_iff.1 hc
      rfl
  | succ k ih => simpa [List.replicate_succ, lineEnd] using ih

section
variable {m e : List Char} (hm : isWord m = true) (he : lineEnd e = true)
include hm he

/-- A mnemonic and words, a blank before each. -/
theorem tokens_words (ws : List (List Char)) (hws : ∀ w ∈ ws, isWord w = true) :
    tokens (m ++ ws.flatMap (fun w => ' ' :: w) ++ e) [] false = .word m :: ws.map .word := by
  obtain ⟨hne, hplain⟩ := isWord_iff.1 hm
  induction ws generalizing m with
  | nil => simpa using tokens_word_end m e hne hplain he
  | cons w ws ih =>
    rw [List.forall_mem_cons] at hws
    obtain ⟨hw, hws⟩ := hws
    obtain ⟨wne, wplain⟩ := isWord_iff.1 hw
    have rest := ih hw hws wne wplain
    have first := tokens_word_blank m (w ++ ws.flatMap (fun w => ' ' :: w) ++ e) hne hplain
    rw [List.map_cons, ← rest, ← first]
    simp only [List.flatMap_cons, List.cons_append, List.append_assoc]

/-- A mnemonic and a string. -/
theorem tokens_word_string {cs : List Char} (hcs : Char.ofNat 34 ∉ cs) :
    tokens (m ++ [' '] ++ Char.ofNat 34 :: cs ++ Char.ofNat 34 :: e) [] false = [.word m, .text cs] := by
  obtain ⟨hne, hplain⟩ := isWord_iff.1 hm
  have first := tokens_word_blank m (Char.ofNat 34 :: (cs ++ Char.ofNat 34 :: e)) hne hplain
  have opening (rest : List Char) : tokens (Char.ofNat 34 :: rest) [] false = tokens rest [] true := rfl
  rw [opening, tokens_string cs e [] hcs, tokens_lineEnd e [] he] at first
  simpa [closeWord] using first

/-- A mnemonic and three words, commas between these. -/
theorem tokens_three_words {a b c : List Char} (ha : isWord a = true) (hb : isWord b = true) (hc : isWord c = true) :
    tokens (m ++ ' ' :: (a ++ ',' :: ' ' :: (b ++ ',' :: ' ' :: (c ++ e)))) [] false =
      [.word m, .word a, .word b, .word c] := by
  rw [isWord_iff] at hm ha hb hc
  rw [tokens_word_blank m _ hm.1 hm.2, tokens_word_comma a _ ha.1 ha.2, tokens_word_comma b _ hb.1 hb.2,
    tokens_word_end c e hc.1 hc.2 he]

end

/-! ### Lines -/

theorem assembleText_of_lineOf {cs : List Char} {ts : List Token} {l : AsmLine} (ht : tokens cs [] false = ts)
    (hl : lineOf ts = some l) : assembleText cs = assemble l := by
  cases ts with
  | nil => cases hl
  | cons t ts => simp only [assembleText, ht, hl]

section
variable {m e : List Char} (he : lineEnd e = true)
include he

theorem assembleText_lineEnd : assembleText e = .ok [] := by
  have none_left : tokens e [] false = [] := tokens_lineEnd e [] he
  rw [assembleText, none_left]

theorem assembleText_mnemonic {l : AsmLine} (hm : isWord m = true) (hl : lineOf [.word m] = some l) :
    assembleText (m ++ e) = assemble l := by
  obtain ⟨hne, hplain⟩ := isWord_iff.1 hm
  exact assembleText_of_lineOf (tokens_word_end m e hne hplain he) hl

/-- A mnemonic and one operand, `read` being how this mnemonic's operand is read. -/
theorem assembleText_operand {read : List Char → Option Nat} {line : Nat → AsmLine} {a : List Char} {n : Nat}
    (hm : isWord m = true) (ha : isWord a = true) (hr : read a = some n)
    (hl : ∀ a, lineOf [.word m, .word a] = (read a).map line) :
    assembleText (m ++ [' '] ++ a ++ e) = assemble (line n) := by
  have words := tokens_words hm he [a] (by simpa using ha)
  exact assembleText_of_lineOf (by simpa using words) (by rw [hl, hr, Option.map_some])

theorem assembleText_wrctl {w ri ro : List Char} {nw nri nro : Nat} (hw : number w = some nw) (hri : number ri = some nri)
    (hro : number ro = some nro) :
    assembleText ("WRCTL w=".toList ++ w ++ ", refin=".toList ++ ri ++ ", refout=".toList ++ ro ++ e) =
      assemble (.wrctl nw nri nro) := by
  have words := tokens_three_words (m := "WRCTL".toList) rfl he
    (isWord_append (cs := ['w'] ++ ['=']) rfl (isWord_of_number hw))
    (isWord_append (cs := "refin".toList ++ ['=']) rfl (isWord_of_number hri))
    (isWord_append (cs := "refout".toList ++ ['=']) rfl (isWord_of_number hro))
  have line : lineOf [.word "WRCTL".toList, .word (['w'] ++ ['='] ++ w), .word ("refin".toList ++ ['='] ++ ri),
      .word ("refout".toList ++ ['='] ++ ro)] = some (.wrctl nw nri nro) := by
    simp only [lineOf, String.ofList_toList, keyed_append _ hw, keyed_append _ hri, keyed_append _ hro, Option.bind_some,
      Option.map_some]
  exact assembleText_of_lineOf (by simpa using words) line

variable {line : List Nat → AsmLine}

/-- A pseudo-command and numbers. -/
theorem assembleText_numbers (hm : isWord m = true) (hl : ∀ ops, lineOf (.word m :: ops) = (byteOperands ops).map line)
    (xs : List (List Char × Nat)) (hxs : ∀ x ∈ xs, number x.1 = some x.2) :
    assembleText (m ++ xs.flatMap (fun x => ' ' :: x.1) ++ e) = assemble (line (xs.map Prod.snd)) := by
  have words := tokens_words hm he (xs.map Prod.fst)
    (List.forall_mem_map.2 fun x hx => isWord_of_number (hxs x hx))
  rw [List.flatMap_map, List.map_map] at words
  refine assembleText_of_lineOf words ?_
  rw [hl, ← Option.map_some]
  exact congrArg _ (byteOperands_words xs hxs)

/-- A pseudo-command and a string of ASCII characters. -/
theorem assembleText_string (hm : isWord m = true) (hl : ∀ ops, lineOf (.word m :: ops) = (byteOperands ops).map line)
    {cs : List Char} {q : Char} (hq : q.toNat = 34) (hcs : q ∉ cs) (ascii : ∀ x ∈ cs, x.toNat < 128) :
    assembleText (m ++ [' '] ++ q :: cs ++ q :: e) = assemble (line (cs.map Char.toNat)) := by
  obtain rfl : q = Char.ofNat 34 := by rw [← hq, Char.ofNat_toNat]
  have codes : byteOperands [.text cs] = some (cs.map Char.toNat) := if_pos (by simpa using ascii)
  exact assembleText_of_lineOf (tokens_word_string hm he hcs) (by rw [hl, codes, Option.map_some])

end

/-- Settles O60: the digits of a number have its value (`digits_map`), and for each form of line one lemma splits the text into
its tokens and finds the line they are. -/
theorem assemblerTextIsReadAsItsLine : Obligations.AssemblerTextIsReadAsItsLine := by
  refine ⟨fun ds hne => ?_, fun ds hne => ⟨?_, ?_⟩, fun k c e hc he => ?_⟩
  · exact number_of_digits (by simpa using hne) (digits_map (f := fun d => Nat.digitChar d.val) (by decide) ds 0)
  · rw [number_hex (by simpa using hne)]
    exact digits_map (f := fun d => Nat.digitChar d.val) (by decide) ds 0
  · rw [number_hex (by simpa using hne)]
    exact digits_map (f := fun d => (Nat.digitChar d.val).toUpper) (by decide) ds 0
  subst he
  have he := lineEnd_replicate_append k hc
  refine ⟨assembleText_lineEnd he, assembleText_mnemonic he rfl rfl, assembleText_mnemonic he rfl rfl,
    assembleText_mnemonic he rfl rfl, fun cs n hn => ?_,
    fun w ri ro nw nri nro hw hri hro => assembleText_wrctl he hw hri hro,
    fun x hx => ?_, fun x hx => ?_, fun xs hxs => ⟨?_, ?_⟩, fun cs q hq hcs ascii => ⟨?_, ?_⟩⟩
  · have word := isWord_of_number hn
    have preset := presetOperand_of_number hn
    have view := viewOperand_of_number hn
    exact ⟨assembleText_operand (m := "WRPOLY".toList) he rfl word hn fun _ => rfl,
      assembleText_operand (m := "WRINIT".toList) he rfl word hn fun _ => rfl,
      assembleText_operand (m := "WRXOR".toList) he rfl word hn fun _ => rfl,
      assembleText_operand (m := "SELP".toList) he rfl word preset fun _ => rfl,
      assembleText_operand (m := "RDREG".toList) he rfl word view fun _ => rfl,
      assembleText_operand (m := "SEED".toList) he rfl word hn fun _ => rfl,
      assembleText_operand (m := "UPDS".toList) he rfl word hn fun _ => rfl,
      assembleText_operand (m := "UPDT".toList) he rfl word hn fun _ => rfl⟩
  · obtain ⟨word, id⟩ := presetOperand_name x hx
    exact assembleText_operand (m := "SELP".toList) he rfl word id fun _ => rfl
  · obtain ⟨word, sel⟩ := viewOperand_name x hx
    exact assembleText_operand (m := "RDREG".toList) he rfl word sel fun _ => rfl
  · exact assembleText_numbers (m := "MSGS".toList) he rfl (fun _ => rfl) xs hxs
  · exact assembleText_numbers (m := "MSGT".toList) he rfl (fun _ => rfl) xs hxs
  · exact assembleText_string (m := "MSGS".toList) he rfl (fun _ => rfl) hq hcs ascii
  · exact assembleText_string (m := "MSGT".toList) he rfl (fun _ => rfl) hq hcs ascii

end Sys2Proof.Machine
end

section
/-! PROOFS. The descriptor commands (`40_descriptor.md` R60 to R64): the registers each writes, the views `RDREG` returns with the
status word as a number (`10_state.md` R19), and what the polynomial 0 does to a message (R61). -/

namespace Sys2Proof.Machine

@[simp] theorem polyOf_zero (w : Nat) : polyOf 0#w = 0 := by
  ext i
  simp

/-- With the polynomial 0 the divisor is `x^W`, and a message of `W` bits moves every coefficient of the remainder to `x^W` or
above (R61). -/
theorem remAfter_poly_zero {w : Nat} (hw : 8 ≤ w) {m : List Byte} (hm : 8 * m.length = w) (refin : Bool) (r : BitVec w) :
    remAfter 0#w refin r m = 0#w := by
  have shiftedOut : residue 0#w (Polynomial.X ^ w) = 0 := by
    rw [AdjoinRoot.mk_eq_zero, divisor, polyOf_zero, add_zero]
  apply eq_of_residue_eq (p := 0#w)
  rw [residue_remAfter hw, hm, ← add_mul, map_mul, shiftedOut, mul_zero, polyOf_zero, map_zero]

/-- Settles O23: the register write is the effect of `WRPOLY`, and the polynomial 0 shifts the remainder out
(`remAfter_poly_zero`). -/
theorem wrpolyWritesPolyAndClearsTv : Obligations.WrpolyWritesPolyAndClearsTv := by
  refine ⟨decode_wrpoly, fun s v => exec_of_effect (.wrpoly s v), ?_, ⟨_, rfl, rfl, rfl⟩⟩
  intro w r m refin hw hm
  exact remAfter_poly_zero (by omega) (by omega) refin r

theorem toNat_wselToBits (ws : WidthSel) :
    (wselToBits ws).toNat = match ws with | .unselected => 0 | .w8 => 1 | .w16 => 2 | .w32 => 3 := by
  cases ws <;> rfl

theorem toNat_viewToBits (sel : RegView) :
    (viewToBits sel).toNat = match sel with | .status => 0 | .poly => 1 | .init => 2 | .xorout => 3 := by
  cases sel <;> rfl

theorem toNat_ecodeBits (c : ErrCode) :
    (ecodeBits c).toNat = match c with | .noError => 0 | .illOp => 1 | .noSel => 2 | .preset => 3 := by
  cases c <;> rfl

/-- The low two bits of `arg` are the code of the width they select (R48, format `C`). -/
theorem mod_four_eq_toNat_wselToBits (arg : Word) : arg.toNat % 4 = (wselToBits (wselOfBits (arg.extractLsb' 0 2))).toNat := by
  rw [wselToBits_ofBits]
  exact (toNat_extractLsb'_zero arg 2).symm

/-- The low two bits of `arg` are the selector of the view they pick (R48, format `S`). -/
theorem mod_four_eq_toNat_viewToBits (arg : Word) : arg.toNat % 4 = (viewToBits (viewOfBits (arg.extractLsb' 0 2))).toNat := by
  rw [viewToBits_ofBits]
  exact (toNat_extractLsb'_zero arg 2).symm

/-- Settles O22: every word of opcode 1 is a `WRCTL` by its low four bits, and the write is the effect of `WRCTL`. -/
theorem wrctlWritesControlAndClearsTv : Obligations.WrctlWritesControlAndClearsTv := by
  refine ⟨fun arg => ⟨_, decode_wrctl arg, ?_⟩, fun s ws ri ro => exec_of_effect (.wrctl s ws ri ro), ⟨_, rfl, rfl, rfl, rfl⟩⟩
  exact (mod_four_eq_toNat_wselToBits arg).trans (toNat_wselToBits _)

/-- Settles O24: the two writes are the effects of `WRINIT` and `WRXOR`. -/
theorem wrinitAndWrxorWriteOneRegister : Obligations.WrinitAndWrxorWriteOneRegister :=
  ⟨fun arg => ⟨decode_wrinit arg, decode_wrxor arg⟩,
    fun s v => ⟨exec_of_effect (.wrinit s v), exec_of_effect (.wrxor s v)⟩, ⟨_, rfl, rfl⟩, ⟨_, rfl, rfl⟩⟩

/-- Two bit vectors side by side, as a number. -/
theorem toNat_append_eq_add {m n : Nat} (x : BitVec m) (y : BitVec n) : (x ++ y).toNat = x.toNat * 2 ^ n + y.toNat := by
  rw [BitVec.toNat_append, ← Nat.shiftLeft_add_eq_or_of_lt y.isLt, Nat.shiftLeft_eq]

/-- The status word as a number: each field times the weight of its lowest bit, and nothing above bit 7 (R19). -/
theorem toNat_statusWord (s : State) : s.statusWord.toNat =
    64 * (ecodeBits s.ecode).toNat + 32 * s.err.toNat + 16 * s.tv.toNat + 8 * s.ctrl.refout.toNat + 4 * s.ctrl.refin.toNat +
      (wselToBits s.ctrl.wsel).toNat := by
  simp only [State.statusWord, toNat_append_eq_add, BitVec.toNat_ofBool, BitVec.toNat_ofNat]
  omega

/-- Bits 1:0 of the status word are `WSEL` (R19). -/
theorem statusWord_mod_four (s : State) : s.statusWord.toNat % 4 = (wselToBits s.ctrl.wsel).toNat := by
  have code := (wselToBits s.ctrl.wsel).isLt
  rw [toNat_statusWord]
  omega

/-- The status word from bit 6 up is `ECODE`: bits 31:8 are zero (R19). -/
theorem statusWord_div_64 (s : State) : s.statusWord.toNat / 64 = (ecodeBits s.ecode).toNat := by
  have code := (wselToBits s.ctrl.wsel).isLt
  have err := s.err.toNat_lt
  have tv := s.tv.toNat_lt
  have refout := s.ctrl.refout.toNat_lt
  have refin := s.ctrl.refin.toNat_lt
  rw [toNat_statusWord]
  omega

/-- The one-bit fields of the status word (R19). -/
theorem statusWord_flags (s : State) : s.statusWord.getLsbD 2 = s.ctrl.refin ∧ s.statusWord.getLsbD 3 = s.ctrl.refout ∧
    s.statusWord.getLsbD 4 = s.tv ∧ s.statusWord.getLsbD 5 = s.err := by
  simp only [State.statusWord, BitVec.getLsbD_append]
  simp

/-- Settles O25: the response is `State.view`, whose status word is R19's field by field. -/
theorem rdregReadsTheViews : Obligations.RdregReadsTheViews := by
  refine ⟨fun arg => ⟨_, decode_rdreg arg, ?_⟩, fun s sel => ⟨s.view sel, exec_of_effect (.rdreg s sel), ?_⟩,
    ⟨_, rfl, rfl⟩, ⟨_, rfl, rfl⟩⟩
  · exact (mod_four_eq_toNat_viewToBits arg).trans (toNat_viewToBits _)
  · refine ⟨congrArg s.view, congrArg s.view, congrArg s.view, ?_⟩
    rintro rfl
    obtain ⟨refin, refout, tv, err⟩ := statusWord_flags s
    exact ⟨(statusWord_mod_four s).trans (toNat_wselToBits _), refin, refout, tv, err,
      (statusWord_div_64 s).trans (toNat_ecodeBits _)⟩

end Sys2Proof.Machine
end

section
/-! PROOFS. The reference engine as bits (`41_reference_bitserial.md` R70, R71, R74, R77): a bit step, a byte through it, and the
end of a message. -/

namespace Sys2Proof.Machine

variable {w : Nat}

/-- Settles O10: the bits of the shifted remainder in `getLsbD_bitStep`, and the rule's examples evaluated. -/
theorem bitStepBitByBit : Obligations.BitStepBitByBit := by
  refine ⟨fun w r p i hi => ?_, by decide⟩
  rw [getLsbD_bitStep, BitVec.getLsbD_shiftLeft, BitVec.msb_eq_getLsbD_last]
  cases i <;> simp [hi]

@[simp] theorem inputByte_zero (refin : Bool) : inputByte refin 0#8 = 0#8 := by
  cases refin <;> simp [inputByte]

@[simp] theorem topByte_zero (w : Nat) : topByte w 0#8 = 0#w := by
  simp [topByte]

theorem topByte_xor (w : Nat) (a b : Byte) : topByte w (a ^^^ b) = topByte w a ^^^ topByte w b := by
  simp only [topByte, BitVec.setWidth_xor, BitVec.shiftLeft_xor_distrib]

/-- Bit 7 of the byte stands on bit `W-1` of the remainder (R71). -/
theorem getLsbD_topByte (d : Byte) {i : Nat} (hi : i < w) :
    (topByte w d).getLsbD i = (decide (w - 8 ≤ i) && d.getLsbD (i - (w - 8))) := by
  rw [topByte, BitVec.getLsbD_shiftLeft, BitVec.getLsbD_setWidth]
  by_cases h : w - 8 ≤ i
  · simp [hi, h, show i - (w - 8) < w by omega, Nat.not_lt.2 h]
  · simp [h, Nat.lt_of_not_le h]

theorem getLsbD_inputByte (refin : Bool) (b : Byte) {j : Nat} (hj : j < 8) :
    (inputByte refin b).getLsbD j = if refin then b.getLsbD (7 - j) else b.getLsbD j := by
  cases refin with
  | false => rfl
  | true => simp only [inputByte, if_true, getLsbD_reflect, hj, decide_true, Bool.true_and]

/-- Settles O11: `r0` is the remainder with the byte xored onto it, bit by bit; the rest of the byte step is eight bit steps. -/
theorem serialByteIsEightBitSteps : Obligations.SerialByteIsEightBitSteps := by
  refine ⟨fun w r r0 p b refin hw h => ?_, by decide +kernel⟩
  have start : r0 = r ^^^ topByte w (inputByte refin b) := by
    apply BitVec.eq_of_getLsbD_eq
    intro i hi
    rw [h i hi, BitVec.getLsbD_xor, getLsbD_topByte _ hi, getLsbD_inputByte _ _ (by omega)]
  rw [start]
  rfl

/-- The byte zero only steps the remainder. -/
theorem byteStepSerial_zero_byte (r p : BitVec w) (refin : Bool) : byteStepSerial r 0#8 p refin = bitSteps p 8 r := by
  simp [byteStepSerial]

/-- R77 (a): the byte step is affine in the remainder. -/
theorem byteStepSerial_xor (r s p : BitVec w) (b : Byte) (refin : Bool) :
    byteStepSerial (r ^^^ s) b p refin = byteStepSerial r b p refin ^^^ byteStepSerial s 0#8 p refin := by
  rw [byteStepSerial_zero_byte, byteStepSerial, byteStepSerial, BitVec.xor_assoc, BitVec.xor_comm s, ← BitVec.xor_assoc,
    bitSteps_xor]

/-- R77 (b): a byte acts only through the top eight bits. -/
theorem byteStepSerial_eq_xor_topByte (r p : BitVec w) (b : Byte) (refin : Bool) :
    byteStepSerial r b p refin = byteStepSerial (r ^^^ topByte w (inputByte refin b)) 0#8 p refin :=
  (byteStepSerial_zero_byte _ p refin).symm

/-- Settles O12, law by law. -/
theorem serialByteIsAffine : Obligations.SerialByteIsAffine := by
  intro w r s p b refin _
  refine ⟨byteStepSerial_xor r s p b refin, byteStepSerial_eq_xor_topByte r p b refin, ?_⟩
  rw [byteStepSerial_zero_byte, bitSteps_zero]

/-- Settles O13: the bits of the reflected remainder, then those of the final XOR value, and the rule's examples evaluated. -/
theorem finalizeReflectsThenXors : Obligations.FinalizeReflectsThenXors := by
  refine ⟨fun w r x refout i hi => ?_, by decide +kernel⟩
  rw [finalize, BitVec.getLsbD_xor]
  cases refout with
  | false => rfl
  | true => simp only [if_true, getLsbD_reflect, hi, decide_true, Bool.true_and]

end Sys2Proof.Machine
end

section
/-! PROOFS. The commands of the reference engine (`41_reference_bitserial.md` R72, R73, R75, R77). -/

namespace Sys2Proof.Machine

/-- With no width selected a data-path command that is no read flags `E_NOSEL` and does nothing else (R113). -/
theorem exec_noWidth {i : Instr} {s : State} (dp : isDataPath i = true) (ne : i ≠ .rdcrc) (hw : s.width = none) :
    exec i s = .next (s.flagged .noSel) := by
  rw [← flagError_eq_flagged]
  exact exec_of_effect (.noWidth i s dp ne hw)

/-- Settles O28: the effect of `INIT` does not read `REM`, so that a second one finds what the first left. -/
theorem initLoadsTheInitialValue : Obligations.InitLoadsTheInitialValue := by
  refine ⟨decode_init, fun s w hw => ⟨?_, ?_⟩, fun s => exec_noWidth rfl (by decide), ⟨_, rfl, rfl⟩⟩
  · exact exec_of_effect (.init s w hw)
  · exact exec_of_effect (.init (s.setRem (low w s.init)) w hw)

/-- `RDCRC` answers the CRC and writes nothing but the response (R75). -/
theorem exec_rdcrc {s : State} {w : Nat} (hw : s.width = some w) {v : Word} (hv : zext32 (s.crc w) = v) :
    exec .rdcrc s = .next (s.respond v) := by
  rw [← hv]
  exact exec_of_effect (.rdcrc s w hw)

/-- Settles O30: the effect of `UPDS`; a zero byte only steps a zero remainder, which stays zero (`byteStepSerial_zero_byte`). -/
theorem updsIsOneSerialByte : Obligations.UpdsIsOneSerialByte := by
  have effect (s : State) (w : Nat) (b : Byte) (hw : s.width = some w) :
      exec (.upds b) s = .next (s.setRem (s.serialStep w b)) := exec_of_effect (.upds s w b hw)
  refine ⟨fun arg => ⟨_, decode_upds arg, toNat_extractLsb'_zero arg 8⟩, effect,
    fun s b => exec_noWidth rfl (by simp), fun s w hw zero => ?_, ?_, ?_⟩
  · rw [effect s w 0#8 hw, State.serialStep, zero, byteStepSerial_zero_byte, bitSteps_zero]
    simp [State.setRem, zext32]
  · exact ⟨_, rfl, by decide +kernel, exec_rdcrc (w := 16) rfl (by decide +kernel)⟩
  · exact ⟨_, rfl, by decide +kernel, by decide +kernel⟩

/-- A `w`-bit value stays below `2^w` in a register (R77 (d)). -/
theorem toNat_zext32_lt {w : Nat} (hw : w ≤ 32) (v : BitVec w) : (zext32 v).toNat < 2 ^ w := by
  rw [toNat_zext32 v hw]
  exact v.isLt

/-- Settles O43: each of the four effects sets `REM` to a value of `W` bits. -/
theorem remainderFitsTheWidth : Obligations.RemainderFitsTheWidth := by
  intro s w i hw hi
  have fits := toNat_zext32_lt (State.width_le hw)
  rcases hi with rfl | ⟨v, rfl⟩ | ⟨b, rfl⟩ | ⟨b, rfl⟩
  · exact ⟨_, exec_of_effect (.init s w hw), fits _⟩
  · exact ⟨_, exec_of_effect (.seed s w v hw), fits _⟩
  · exact ⟨_, exec_of_effect (.upds s w b hw), fits _⟩
  · exact ⟨_, exec_of_effect (.updt s w b hw), fits _⟩

/-- Straight after `INIT` the CRC is that of the empty message (R76). -/
theorem State.crc_setRem_init {s : State} {w : Nat} (hw : s.width = some w) :
    zext32 ((s.setRem (low w s.init)).crc w) = s.crcOf w [] := by
  rw [State.crc, State.setRem_rem, low_zext32 (State.width_le hw)]
  rfl

/-- Settles O33: the effect of `RDCRC` reads `REM`, `XOROUT` and `REFOUT` and writes none of them. -/
theorem rdcrcAnswersTheCrc : Obligations.RdcrcAnswersTheCrc := by
  refine ⟨decode_rdcrc, fun s w hw => ⟨_, rfl, ?_, ?_, ?_⟩, fun s hw => ?_, fun s w hw => ⟨_, exec_of_effect (.init s w hw), ?_⟩,
    ?_⟩
  · exact exec_rdcrc hw rfl
  · exact toNat_zext32_lt (State.width_le hw) _
  · exact exec_rdcrc (s := { s with rsp := none }) hw rfl
  · rw [← flagError_eq_flagged]
    exact exec_of_effect (.rdcrcNoWidth s hw)
  · exact exec_rdcrc (s := s.setRem (low w s.init)) hw (State.crc_setRem_init hw)
  · exact ⟨_, rfl, by decide +kernel⟩

end Sys2Proof.Machine
end

section
/-! PROOFS. The table engine against the reference engine (`43_table_computation.md` R87, R89), and a whole message by any mixture of
the two (`41_reference_bitserial.md` R76). -/

namespace Sys2Proof.Machine

variable {w : Nat}

/-- A remainder is its top byte at its place and, below, what a shift by eight keeps. -/
theorem topByte_xor_shifts (r : BitVec w) (hw : 8 ≤ w) :
    topByte w (r.extractLsb' (w - 8) 8) ^^^ (r <<< 8 >>> 8) = r := by
  apply BitVec.eq_of_getLsbD_eq
  intro i hi
  rw [BitVec.getLsbD_xor, getLsbD_topByte _ hi, BitVec.getLsbD_extractLsb', BitVec.getLsbD_ushiftRight,
    BitVec.getLsbD_shiftLeft]
  by_cases top : w - 8 ≤ i
  · simp [top, show i - (w - 8) < 8 by omega, show ¬ 8 + i < w by omega]
  · simp [top, show 8 + i < w by omega]

/-- Eight bit steps from a remainder with no top byte only shift. -/
theorem bitSteps_eight_shifts (p r : BitVec w) : bitSteps p 8 (r <<< 8 >>> 8) = r <<< 8 := by
  have noTop : (r <<< 8 >>> 8).toNat * 2 ^ 8 < 2 ^ w := by
    rw [BitVec.toNat_ushiftRight, Nat.shiftRight_eq_div_pow]
    exact Nat.lt_of_le_of_lt (Nat.div_mul_le_self _ _) (r <<< 8).isLt
  rw [bitSteps_of_top_zero p 8 _ noTop]
  apply BitVec.eq_of_getLsbD_eq
  intro i hi
  by_cases low : i < 8
  · simp [low]
  · simp [low, hi, show 8 + (i - 8) = i by omega]

/-- R87: one look-up in the generated table is one byte of the reference engine. -/
theorem byteStepTable_tblgen (hw : 8 ≤ w) (p r : BitVec w) (b : Byte) (refin : Bool) :
    byteStepTable r b (tblgen w p) refin = byteStepSerial r b p refin := by
  let top := r.extractLsb' (w - 8) 8
  let d := inputByte refin b
  calc byteStepTable r b (tblgen w p) refin
      = (r <<< 8) ^^^ bitSteps p 8 (0#w ^^^ topByte w (top ^^^ d)) := rfl
    _ = bitSteps p 8 (r <<< 8 >>> 8) ^^^ bitSteps p 8 (topByte w top ^^^ topByte w d) := by
      rw [bitSteps_eight_shifts, BitVec.zero_xor, topByte_xor]
    _ = bitSteps p 8 ((topByte w top ^^^ (r <<< 8 >>> 8)) ^^^ topByte w d) := by
      rw [← bitSteps_xor, ← BitVec.xor_assoc, BitVec.xor_comm (topByte w top)]
    _ = byteStepSerial r b p refin := by rw [topByte_xor_shifts r hw]; rfl

/-- With the table invariant the table engine computes what the reference engine does (R87). -/
theorem State.tableStep_ensureTable {s : State} (hw : s.width = some w) (hc : s.tableCoherent) (b : Byte) :
    (s.ensureTable w).tableStep w b = s.serialStep w b := by
  have table : (s.ensureTable w).lowTable w = tblgen w (low w s.poly) := by
    funext i
    rw [State.lowTable, entry_ensureTable hw hc, low_zext32 (State.width_le hw)]
  have wide : 8 ≤ w := by rcases State.width_cases hw with rfl | rfl | rfl <;> decide
  rw [State.tableStep, table, State.ensureTable_rem, State.ensureTable_ctrl, byteStepTable_tblgen wide]
  rfl

/-- What the bytes `m` make of a state at width `w`: the remainder goes on by the reference engine, only `REM`, `TBL` and `TV` may
change, and the table invariant holds. -/
structure State.Updated (w : Nat) (m : List Byte) (s t : State) : Prop where
  frame : t = { s with rem := t.rem, tbl := t.tbl, tv := t.tv }
  rem : low w t.rem = remAfter (low w s.poly) s.ctrl.refin (low w s.rem) m
  coherent : t.tableCoherent

section
variable {m n : List Byte} {s t u : State} (h : State.Updated w m s t)
include h

theorem State.Updated.ctrl : t.ctrl = s.ctrl := by rw [h.frame]
theorem State.Updated.poly : t.poly = s.poly := by rw [h.frame]
theorem State.Updated.xorout : t.xorout = s.xorout := by rw [h.frame]
theorem State.Updated.rsp : t.rsp = s.rsp := by rw [h.frame]

theorem State.Updated.width : t.width = s.width := State.width_congr h.ctrl

/-- The bytes of two messages, one after the other. -/
theorem State.Updated.trans (h' : State.Updated w n t u) : State.Updated w (m ++ n) s u where
  frame := by rw [h'.frame, h.frame]
  rem := by rw [h'.rem, h.poly, h.ctrl, h.rem, remAfter_append]
  coherent := h'.coherent

/-- The CRC read out is that of the remainder the bytes leave. -/
theorem State.Updated.crc : t.crc w = crcRef m (low w s.poly) (low w s.rem) s.ctrl.refin s.ctrl.refout (low w s.xorout) := by
  rw [State.crc, h.rem, h.ctrl, h.xorout]
  rfl

end

/-- One byte by either engine. -/
theorem exec_update {s : State} (hw : s.width = some w) (hc : s.tableCoherent) (e : Engine) (b : Byte) :
    ∃ t, exec (update e b) s = .next t ∧ State.Updated w [b] s t := by
  have rem : low w (zext32 (s.serialStep w b)) = s.serialStep w b := low_zext32 (State.width_le hw) _
  cases e with
  | serial =>
    have effect := Effect.upds s w b hw
    exact ⟨_, exec_of_effect effect, rfl, rem, effect.tableCoherent hc⟩
  | table =>
    have effect := Effect.updt s w b hw
    rw [State.tableStep_ensureTable hw hc] at effect
    refine ⟨_, exec_of_effect effect, ?_, rem, effect.tableCoherent hc⟩
    rw [ensureTable_eq]
    rfl

/-- A command that leaves no response, and the commands after it. -/
theorem execAll_cons_of_next {i : Instr} {s t : State} (h : exec i s = .next t) (hr : t.rsp = none) (is : List Instr) :
    execAll (i :: is) s = execAll is t := by
  simp only [execAll, h, State.takeResponse_of_none hr]

/-- A message by any mixture of the engines (R89), and the commands after it. -/
theorem execAll_updates (m : List (Engine × Byte)) {s : State} (hw : s.width = some w) (hc : s.tableCoherent)
    (hr : s.rsp = none) (is : List Instr) :
    ∃ t, execAll (updates m ++ is) s = execAll is t ∧ State.Updated w (m.map Prod.snd) s t := by
  induction m generalizing s with
  | nil => exact ⟨s, rfl, rfl, rfl, hc⟩
  | cons x m ih =>
    obtain ⟨t, first, byte⟩ := exec_update hw hc x.1 x.2
    have free : t.rsp = none := byte.rsp.trans hr
    obtain ⟨u, run, rest⟩ := ih (byte.width.trans hw) byte.coherent free
    exact ⟨u, (execAll_cons_of_next first free _).trans run, byte.trans rest⟩

/-- `RDCRC` at the end of a sequence: the host takes the CRC, and nothing else changes. -/
theorem execAll_rdcrc {s : State} (hw : s.width = some w) :
    execAll [.rdcrc] s = .next { s with rsp := none, taken := s.taken ++ [zext32 (s.crc w)] } := by
  simp only [execAll, exec_rdcrc hw rfl]
  rfl

/-- Settles O54: `INIT`, the message (`execAll_updates`), and the CRC of the remainder it leaves. -/
theorem messageByEitherEngineGivesTheReferenceCrc : Obligations.MessageByEitherEngineGivesTheReferenceCrc := by
  intro s w m hw hc hr
  have start := Effect.init s w hw
  have begun := execAll_cons_of_next (exec_of_effect start) hr (updates m ++ [.rdcrc])
  obtain ⟨t, run, updated⟩ := execAll_updates m (s := s.setRem (low w s.init)) hw (start.tableCoherent hc) hr [.rdcrc]
  have crc : zext32 (t.crc w) = s.crcOf w (m.map Prod.snd) := by
    rw [updated.crc, State.setRem_rem, low_zext32 (State.width_le hw)]
    rfl
  refine ⟨_, begun.trans (run.trans (execAll_rdcrc (updated.width.trans hw))), ?_, ?_⟩
  · rw [crc, updated.frame, ← hr]
    rfl
  · exact tableCoherent_congr rfl rfl rfl rfl updated.coherent

end Sys2Proof.Machine
end

section
/-! PROOFS. The generated table as pure data (`42_table_generator.md` R80, R83): entry `i` is `i(x) x^W` modulo the divisor, which
is also `i(x) P(x)`. -/

namespace Sys2Proof.Machine

open Polynomial

variable {w : Nat}

theorem polyOf_one (h : 0 < w) : polyOf 1#w = 1 := by
  ext i
  cases i <;> simp [coeff_one, h]

/-- Modulo the divisor `x^W + P` the implicit term `x^W` is the polynomial `P` (R12). -/
theorem residue_X_pow_width (p : BitVec w) : residue p (X ^ w) = residue p (polyOf p) := by
  have difference : (X ^ w - polyOf p : (ZMod 2)[X]) = divisor p := by rw [divisor, CharTwo.sub_eq_add]
  rw [AdjoinRoot.mk_eq_mk, difference]

/-- A table entry is its index times the polynomial, modulo the divisor (R80). -/
theorem residue_tblgen (hw : 8 ≤ w) (p : BitVec w) (i : Byte) :
    residue p (polyOf (tblgen w p i)) = residue p (polyOf i * polyOf p) := by
  calc residue p (polyOf (tblgen w p i))
      = residue p (polyOf 0#w * X ^ 8 + polyOf i * X ^ w) := residue_byteStepSerial hw 0#w p i false
    _ = residue p (polyOf i * polyOf p) := by
      rw [polyOf_zero, zero_mul, zero_add, map_mul, map_mul, residue_X_pow_width]

/-- R80: an entry is eight bit steps of its index on the top byte. -/
theorem tblgen_eq_bitSteps (p : BitVec w) (i : Byte) : tblgen w p i = bitSteps p 8 (topByte w i) :=
  congrArg (bitSteps p 8) (BitVec.zero_xor ..)

/-- R83 (a). -/
theorem tblgen_zero (p : BitVec w) : tblgen w p 0#8 = 0#w := by
  rw [tblgen_eq_bitSteps, topByte_zero, bitSteps_zero]

/-- R83 (b): the index 1 is the polynomial 1. -/
theorem tblgen_one (hw : 8 ≤ w) (p : BitVec w) : tblgen w p 1#8 = p := by
  apply eq_of_residue_eq (p := p)
  rw [residue_tblgen hw, polyOf_one (by decide), one_mul]

/-- R83 (c): the table is linear in its index, as the bit steps are in the remainder. -/
theorem tblgen_xor (p : BitVec w) (a b : Byte) : tblgen w p (a ^^^ b) = tblgen w p a ^^^ tblgen w p b := by
  simp only [tblgen_eq_bitSteps, topByte_xor, bitSteps_xor]

/-- The polynomial 0 gives a table of zeros (R81). -/
theorem tblgen_poly_zero (hw : 8 ≤ w) (i : Byte) : tblgen w 0#w i = 0#w := by
  apply eq_of_residue_eq (p := 0#w)
  rw [residue_tblgen hw, polyOf_zero, mul_zero]

end Sys2Proof.Machine
end

section
/-! PROOFS. The commands that build the table (`42_table_generator.md` R81 to R83): `TGEN`, and `TV` after every command. -/

namespace Sys2Proof.Machine

variable {s t : State} {w : Nat}

theorem State.width_ge (hw : s.width = some w) : 8 ≤ w := by
  rcases State.width_cases hw with rfl | rfl | rfl <;> decide

theorem State.wsel_ne_unselected (hw : s.width = some w) : s.ctrl.wsel ≠ .unselected := by
  intro none
  simp [State.width_eq_none.2 none] at hw

theorem exec_tgen (hw : s.width = some w) : exec .tgen s = .next (s.buildTable w) :=
  exec_of_effect (.tgen s w hw)

/-- Building reads `W` and the low bits of `POLY` alone (R83 (d)). -/
theorem State.buildTable_tbl_congr (h : low w s.poly = low w t.poly) : (s.buildTable w).tbl = (t.buildTable w).tbl := by
  rw [State.buildTable_tbl, State.buildTable_tbl, h]

/-- A valid table is rewritten with what it holds (R81). -/
theorem State.buildTable_of_tableCoherent (hw : s.width = some w) (hc : s.tableCoherent) (hv : s.tv = true) :
    s.buildTable w = s := by
  have same : (s.buildTable w).tbl = s.tbl :=
    tbl_eq_of_tableCoherent hc ((Effect.tgen s w hw).tableCoherent hc) hv rfl rfl rfl
  calc s.buildTable w = { s with tbl := (s.buildTable w).tbl, tv := true } := rfl
    _ = s := by rw [same, ← hv]

/-- Settles O15: the laws are those of `tblgen`, and ARC and Modbus have the same `W` and `POLY`, which are all that
`TGEN` reads (`State.buildTable_tbl_congr`). -/
theorem tableEntriesAndTheirLaws : Obligations.TableEntriesAndTheirLaws := by
  refine ⟨fun w p hw => ?_, fun s t w hs ht hp => ?_, fun s => ?_, by decide +kernel⟩
  · have wide : 8 ≤ w := by omega
    exact ⟨fun _ => rfl, tblgen_zero p, tblgen_one wide p, tblgen_xor p⟩
  · exact ⟨_, _, exec_tgen hs, exec_tgen ht, State.buildTable_tbl_congr hp⟩
  · have arc := exec_of_effect (.selp s (presetId .crc16Arc) _ (by decide) rfl)
    have modbus (u : State) := exec_of_effect (.selp u (presetId .crc16Modbus) _ (by decide) rfl)
    exact ⟨_, _, _, _, arc, exec_tgen (w := 16) rfl, modbus _, rfl, exec_tgen (w := 16) rfl, State.buildTable_tbl_congr rfl⟩

/-- Settles O31: `TGEN` is `State.buildTable`, whose entries are those of `entry_buildTable`. -/
theorem tgenBuildsTheTable : Obligations.TgenBuildsTheTable := by
  refine ⟨decode_tgen, fun s w hw => ⟨_, exec_tgen hw, entry_buildTable s w, rfl, ?_, fun zero i => ?_⟩,
    fun s => exec_noWidth rfl (by decide), ?_⟩
  · exact State.buildTable_of_tableCoherent hw
  · rw [entry_buildTable, zero, tblgen_poly_zero (State.width_ge hw)]
    simp [zext32]
  · refine ⟨_, rfl, rfl, (entry_buildTable _ 16 _).trans ?_, (entry_buildTable _ 16 _).trans ?_, rfl⟩ <;> decide +kernel

/-- Settles O41: `TV` read off the effect of each command; the lazy build is that of `entry_ensureTable`, which asks nothing of a
table that is not valid. -/
theorem tableValidStateMachine : Obligations.TableValidStateMachine := by
  refine ⟨fun i s t h => ?_, fun s rest hi => ⟨_, step_reset hi, rfl⟩, fun s t w b hw hv h i => ?_⟩
  · cases exec_effect h with
    | selp s id d le => exact (if_pos le).symm
    | selpReserved s id ge => simp [Nat.not_le.2 ge]
    | updt s w b hw | tgen s w hw => simp [State.wsel_ne_unselected hw]
    | noWidth i s dp ne hw =>
      have unselected := State.width_eq_none.1 hw
      cases i with
      | wrctl | wrpoly | selp => cases dp
      | _ => simp [unselected]
    | reserved i s r =>
      cases i with
      | reserved0 | reservedD | reservedE | reservedF => simp
      | _ => cases r
    | _ => simp
  · cases h.symm.trans (exec_of_effect (.updt s w b hw))
    exact entry_ensureTable hw (tableCoherent_of_tv hv) i

end Sys2Proof.Machine
end

section
/-! PROOFS. The table engine (`43_table_computation.md` R85 to R87): a byte through it as bits, and the command `UPDT`. -/

namespace Sys2Proof.Machine

variable {w : Nat}

/-- Settles O17: it is the rule of a look-up in the generated table. -/
theorem tableStepEqualsSerialStep : Obligations.TableStepEqualsSerialStep := fun _ p r b refin hw =>
  byteStepTable_tblgen (by omega) p r b refin

/-- The index of the look-up bit by bit (R85). -/
theorem getLsbD_tableIndex (r : BitVec w) (b : Byte) (refin : Bool) {j : Nat} (hj : j < 8) :
    (r.extractLsb' (w - 8) 8 ^^^ inputByte refin b).getLsbD j =
      (r.getLsbD (w - 8 + j) ^^ (if refin then b.getLsbD (7 - j) else b.getLsbD j)) := by
  simp only [BitVec.getLsbD_xor, BitVec.getLsbD_extractLsb', getLsbD_inputByte refin b hj, hj, decide_true, Bool.true_and]

/-- Settles O16: the eight bits given fix the index (`getLsbD_tableIndex`), and the rest is a shift by eight and an xor. -/
theorem tableByteIsOneLookup : Obligations.TableByteIsOneLookup := by
  intro w r b idx t refin i _ bits hi
  have index : idx = r.extractLsb' (w - 8) 8 ^^^ inputByte refin b :=
    BitVec.eq_of_getLsbD_eq fun j hj => (bits j hj).trans (getLsbD_tableIndex r b refin hj).symm
  rw [byteStepTable, ← index, BitVec.getLsbD_xor, BitVec.getLsbD_shiftLeft]
  simp only [hi, decide_true, Bool.true_and, ← decide_not, Nat.not_lt]

/-- Settles O32: the effect of `UPDT`, whose lazy build keeps a valid table and builds one otherwise. -/
theorem updtIsOneTableByte : Obligations.UpdtIsOneTableByte := by
  refine ⟨fun arg => ⟨_, decode_updt arg, toNat_extractLsb'_zero arg 8⟩,
    fun s w b hw => ⟨_, exec_of_effect (.updt s w b hw), fun hv => ?_, fun hv => ?_, ?_, ?_⟩,
    fun s b => exec_noWidth rfl (by simp), ?_⟩
  · simp [State.ensureTable, hv]
  · exact entry_ensureTable hw (tableCoherent_of_tv hv)
  · rw [State.setRem_rem, State.tableStep, State.ensureTable_rem, State.ensureTable_ctrl]
    rfl
  · rw [ensureTable_eq]
    rfl
  · exact ⟨_, rfl, by decide +kernel, (entry_ensureTable (w := 16) rfl (tableCoherent_of_tv rfl) _).trans (by decide +kernel), rfl⟩

/-- Settles O53: the two effects set `REM` to the same value (`State.tableStep_ensureTable`), and `UPDT` keeps the invariant. -/
theorem updtAndUpdsLeaveTheSameRemainder : Obligations.UpdtAndUpdsLeaveTheSameRemainder := by
  intro s w b hw hc
  have table := Effect.updt s w b hw
  rw [State.tableStep_ensureTable hw hc] at table
  refine ⟨_, _, exec_of_effect table, exec_of_effect (.upds s w b hw), rfl, ?_, table.tableCoherent hc⟩
  rw [ensureTable_eq]
  rfl

end Sys2Proof.Machine
end

section
/-! PROOFS. The mirror form (`43_table_computation.md` R88) as the reflection of the left-shifting form: its bit step, its two byte
steps, and a whole message. -/

namespace Sys2Proof.Machine

variable {w : Nat}

theorem reflect_shiftLeft (r : BitVec w) (k : Nat) : reflect (r <<< k) = reflect r >>> k := by
  apply BitVec.eq_of_getLsbD_eq
  intro i hi
  rw [getLsbD_reflect, BitVec.getLsbD_shiftLeft, BitVec.getLsbD_ushiftRight, getLsbD_reflect]
  by_cases h : k + i < w
  · simp [hi, h, show w - 1 - i < w by omega, show ¬ w - 1 - i < k by omega, show w - 1 - i - k = w - 1 - (k + i) by omega]
  · simp [h, show w - 1 - i < k by omega]

theorem getLsbD_reflect_zero (r : BitVec w) : (reflect r).getLsbD 0 = r.msb := by
  rw [getLsbD_reflect, BitVec.msb_eq_getLsbD_last]
  cases w <;> simp

/-- The low byte of the reflected remainder is the top byte, reflected. -/
theorem setWidth_reflect (hw : 8 ≤ w) (r : BitVec w) :
    (reflect r).setWidth 8 = reflect (r.extractLsb' (w - 8) 8) := by
  apply BitVec.eq_of_getLsbD_eq
  intro i hi
  rw [BitVec.getLsbD_setWidth, getLsbD_reflect, getLsbD_reflect, BitVec.getLsbD_extractLsb']
  simp [hi, show i < w by omega, show 7 - i < 8 by omega, show w - 8 + (7 - i) = w - 1 - i by omega]

/-- A byte on the top eight bits is, reflected, the reflected byte on the low eight. -/
theorem reflect_topByte (hw : 8 ≤ w) (d : Byte) : reflect (topByte w d) = (reflect d).setWidth w := by
  apply BitVec.eq_of_getLsbD_eq
  intro i hi
  rw [getLsbD_reflect, getLsbD_topByte d (by omega), BitVec.getLsbD_setWidth, getLsbD_reflect]
  by_cases h : i < 8
  · simp [hi, h, show w - 8 ≤ w - 1 - i by omega, show w - 1 - i - (w - 8) = 7 - i by omega]
  · simp [h, show ¬ w - 8 ≤ w - 1 - i by omega]

theorem mirrorBitStep_reflect (r p : BitVec w) : mirrorBitStep (reflect r) (reflect p) = reflect (bitStep r p) := by
  rw [mirrorBitStep, bitStep, getLsbD_reflect_zero, ← reflect_shiftLeft, ← reflect_xor]
  split <;> rfl

theorem mirrorBitSteps_reflect (p : BitVec w) (k : Nat) (r : BitVec w) :
    mirrorBitSteps (reflect p) k (reflect r) = reflect (bitSteps p k r) := by
  induction k generalizing r with
  | zero => rfl
  | succ k ih => rw [mirrorBitSteps, mirrorBitStep_reflect, ih, bitSteps]

theorem mirrorByteStepSerial_reflect (hw : 8 ≤ w) (r p : BitVec w) (b : Byte) :
    mirrorByteStepSerial (reflect r) b (reflect p) = reflect (byteStepSerial r b p true) := by
  have start : reflect r ^^^ b.setWidth w = reflect (r ^^^ topByte w (inputByte true b)) := by
    rw [reflect_xor, reflect_topByte hw, inputByte, if_pos rfl, reflect_reflect]
  rw [mirrorByteStepSerial, start, mirrorBitSteps_reflect]
  rfl

theorem mirrorByteStepTable_reflect (hw : 8 ≤ w) (r p : BitVec w) (b : Byte) :
    mirrorByteStepTable (reflect r) b (mirrorTable w p) = reflect (byteStepSerial r b p true) := by
  have index : reflect ((reflect r).setWidth 8 ^^^ b) = r.extractLsb' (w - 8) 8 ^^^ inputByte true b := by
    rw [setWidth_reflect hw, reflect_xor, reflect_reflect]
    rfl
  rw [mirrorByteStepTable, mirrorTable, index, ← reflect_shiftLeft, ← reflect_xor, ← byteStepTable_tblgen hw]
  rfl

theorem mirrorFinalize_reflect (r x : BitVec w) (refout : Bool) :
    mirrorFinalize (reflect r) refout x = finalize r refout x := by
  rw [mirrorFinalize, reflect_reflect, finalize]

/-- A byte step that is the reflection of the reference engine's is so over a whole message, and the ends agree. -/
theorem mirrorFinalize_foldl {p : BitVec w} {f : BitVec w → Byte → BitVec w}
    (hf : ∀ r b, f (reflect r) b = reflect (byteStepSerial r b p true)) (m : List Byte) (r x : BitVec w) (refout : Bool) :
    mirrorFinalize (m.foldl f (reflect r)) refout x = crcRef m p r true refout x := by
  induction m generalizing r with
  | nil => exact mirrorFinalize_reflect r x refout
  | cons b m ih =>
    rw [List.foldl_cons, hf, ih]
    rfl

/-- Settles O18: each byte step of the mirror form is the reflection of the reference engine's, and so a message of them
(`mirrorFinalize_foldl`); the entries of the reflected table are evaluated. -/
theorem mirrorFormIsTheReversedImage : Obligations.MirrorFormIsTheReversedImage := by
  refine ⟨fun w r p x b m refout hw => ?_, by decide +kernel⟩
  have wide : 8 ≤ w := by omega
  have serial (q : BitVec w) (c : Byte) := mirrorByteStepSerial_reflect wide q p c
  have table (q : BitVec w) (c : Byte) := mirrorByteStepTable_reflect wide q p c
  exact ⟨serial r b, table r b, mirrorFinalize_foldl serial m r x refout, mirrorFinalize_foldl table m r x refout⟩

end Sys2Proof.Machine
end

section
/-! PROOFS. From a CRC back to the remainder it was made from (`44_standard_variants.md` R98), and the command `SEED` that does so
(R99). -/

namespace Sys2Proof.Machine

variable {w : Nat}

@[simp] theorem unfinalize_finalize (r x : BitVec w) (refout : Bool) : unfinalize (finalize r refout x) refout x = r := by
  cases refout <;> simp [unfinalize, finalize]

@[simp] theorem finalize_unfinalize (v x : BitVec w) (refout : Bool) : finalize (unfinalize v refout x) refout x = v := by
  cases refout <;> simp [unfinalize, finalize]

theorem unfinalize_false_zero (v : BitVec w) : unfinalize v false 0#w = v := by
  simp [unfinalize]

theorem unfinalize_true_zero (v : BitVec w) : unfinalize v true 0#w = reflect v := by
  simp [unfinalize]

/-- Settles O14: the bits of the xored value, reflected or not, and the two inverse laws. -/
theorem unfinalizeInvertsFinalize : Obligations.UnfinalizeInvertsFinalize := by
  refine ⟨fun w v x refout i hi => ?_, fun w r x refout => ⟨unfinalize_finalize r x refout, finalize_unfinalize r x refout⟩,
    fun w => unfinalize_false_zero, by decide +kernel⟩
  cases refout with
  | false => exact BitVec.getLsbD_xor
  | true => simp only [unfinalize, if_true, getLsbD_reflect, hi, decide_true, Bool.true_and, BitVec.getLsbD_xor]

variable {s : State}

/-- `SEED` of a CRC, as the response word `RDCRC` gives, loads the remainder the CRC was made from (R99). -/
theorem State.seedRem_finalize (hw : s.width = some w) (r : BitVec w) :
    s.seedRem w (zext32 (finalize r s.ctrl.refout (low w s.xorout))) = r := by
  rw [State.seedRem, low_zext32 (State.width_le hw), unfinalize_finalize]

/-- What `SEED` loads from a value is a remainder whose CRC is the value (R99). -/
theorem State.crc_setRem_seedRem (hw : s.width = some w) (v : Word) : (s.setRem (s.seedRem w v)).crc w = low w v := by
  rw [State.crc, State.setRem_rem, low_zext32 (State.width_le hw)]
  exact finalize_unfinalize _ _ _

/-- Settles O29: the effect of `SEED`, from which `RDCRC` gets the value back (`State.crc_setRem_seedRem`); the empty CRC is that
of the initial value (`State.seedRem_finalize`). -/
theorem seedLoadsTheRemainderOfItsCrc : Obligations.SeedLoadsTheRemainderOfItsCrc := by
  have effect (s : State) (w : Nat) (v : Word) (hw : s.width = some w) :
      exec (.seed v) s = .next (s.setRem (s.seedRem w v)) := exec_of_effect (.seed s w v hw)
  refine ⟨decode_seed, fun s w v hw => ⟨_, rfl, effect s w v hw, ?_⟩, fun s v => exec_noWidth rfl (by simp),
    fun s w hw => ?_, ?_, ⟨_, rfl, by decide +kernel⟩⟩
  · exact exec_rdcrc (s := s.setRem (s.seedRem w v)) hw (congrArg zext32 (State.crc_setRem_seedRem hw v))
  · have empty : s.seedRem w (s.crcOf w []) = low w s.init := State.seedRem_finalize hw _
    rw [effect s w _ hw, empty]
    exact (exec_of_effect (.init s w hw)).symm
  · exact ⟨_, rfl, by decide +kernel, _, rfl, by decide +kernel⟩

end Sys2Proof.Machine
end

section
/-! PROOFS. The presets (`44_standard_variants.md` R90, R91): `SELP` as the write of its row, and as the four descriptor writes of
`40_descriptor.md` R65 in any order. -/

namespace Sys2Proof.Machine

variable {s t : State} {id : Byte} {d : Descriptor}

theorem exec_selp (row : presetRow s.cfg id = some d) : exec (.selp id) s = .next (s.loadDescriptor d).invalidateTable := by
  simp only [exec, execSelp, row]

theorem exec_selp_reserved (ge : 6 ≤ id.toNat) : exec (.selp id) s = .next (s.flagged .preset) := by
  rw [← flagError_eq_flagged]
  exact exec_of_effect (.selpReserved s id ge)

section
variable (cfg : Config)

/-! The rows of R90 that are not a parameter, by name. -/

theorem presetRow_crc8Dvbs2 : presetRow cfg (presetId .crc8Dvbs2) = some ⟨.w8, 0x000000D5#32, 0#32, false, false, 0#32⟩ := rfl
theorem presetRow_crc16Ccitt : presetRow cfg (presetId .crc16Ccitt) = some ⟨.w16, 0x00001021#32, 0#32, false, false, 0#32⟩ := rfl
theorem presetRow_crc16Arc : presetRow cfg (presetId .crc16Arc) = some ⟨.w16, 0x00008005#32, 0#32, true, true, 0#32⟩ := rfl
theorem presetRow_crc16Modbus :
    presetRow cfg (presetId .crc16Modbus) = some ⟨.w16, 0x00008005#32, 0x0000FFFF#32, true, true, 0#32⟩ := rfl
theorem presetRow_crc32 :
    presetRow cfg (presetId .crc32) = some ⟨.w32, 0x04C11DB7#32, 0xFFFFFFFF#32, true, true, 0xFFFFFFFF#32⟩ := rfl

end

/-- Settles O26: each row is that of the preset ROM, and its check and empty values are evaluated. -/
theorem selpLoadsThePresetRow : Obligations.SelpLoadsThePresetRow := by
  refine ⟨fun arg => ⟨_, decode_selp arg, toNat_extractLsb'_zero arg 8⟩, fun s id d row => ?_, fun s id => exec_selp_reserved,
    ⟨_, rfl, rfl, rfl, rfl, rfl, rfl, rfl⟩, rfl, ⟨_, rfl, by decide +kernel⟩, ⟨_, rfl, rfl, rfl, rfl⟩⟩
  have rom : presetRow s.cfg id = some d := by
    rcases row with ⟨rfl, rfl⟩ | ⟨rfl, rfl⟩ | ⟨rfl, rfl⟩ | ⟨rfl, rfl⟩ | ⟨rfl, rfl⟩ | ⟨rfl, rfl⟩ <;> rfl
  exact exec_selp rom

/-- A sequence that completes, and the commands after it. -/
theorem execAll_append_of_next {is : List Instr} (h : execAll is s = .next t) (js : List Instr) :
    execAll (is ++ js) s = execAll js t := by
  induction is generalizing s with
  | nil =>
    cases h
    rfl
  | cons i is ih =>
    obtain ⟨u, hu⟩ := exec_completes i s
    simp only [execAll, List.cons_append, hu] at h ⊢
    exact ih h

/-- From a free response channel the two commands do the same in either order. -/
def Commute (i j : Instr) : Prop := ∀ s : State, s.rsp = none → execAll [i, j] s = execAll [j, i] s

theorem Commute.symm {i j : Instr} (h : Commute i j) : Commute j i := fun s hr => (h s hr).symm

/-- Two commands that commute may change places at the head of a sequence. -/
theorem Commute.execAll_swap {i j : Instr} (h : Commute i j) (hr : s.rsp = none) (is : List Instr) :
    execAll (i :: j :: is) s = execAll (j :: i :: is) s := by
  obtain ⟨t, ht, -⟩ := run_sendAll [i, j] s hr
  have swapped : execAll [j, i] s = .next t := (h s hr).symm.trans ht
  exact (execAll_append_of_next ht is).trans (execAll_append_of_next swapped is).symm

/-- Commands that commute with one another may come in any order. -/
theorem execAll_perm {is js : List Instr} (perm : is.Perm js) (commute : js.Pairwise Commute) (hr : s.rsp = none) :
    execAll is s = execAll js s := by
  induction perm generalizing s with
  | nil => rfl
  | cons i _ ih =>
    obtain ⟨t, ht⟩ := exec_completes i s
    simp only [execAll, ht]
    exact ih (List.pairwise_cons.1 commute).2 t.takeResponse_rsp
  | swap i j is => exact ((List.pairwise_cons.1 commute).1 j (by simp)).symm.execAll_swap hr is
  | trans _ second ihFirst ihSecond =>
    exact (ihFirst (second.symm.pairwise commute Commute.symm) hr).trans (ihSecond commute hr)

/-- The four commands that write a descriptor (R65). -/
def descriptorWrites (d : Descriptor) : List Instr :=
  [.wrctl d.wsel d.refin d.refout, .wrpoly d.poly, .wrinit d.init, .wrxor d.xorout]

/-- Each of the four writes a register of its own, and `TV` is only cleared. -/
theorem descriptorWrites_commute (d : Descriptor) : (descriptorWrites d).Pairwise Commute := by
  simp only [descriptorWrites, List.pairwise_cons, List.forall_mem_cons]
  refine ⟨⟨?_, ?_, ?_, by simp⟩, ⟨?_, ?_, by simp⟩, ⟨?_, by simp⟩, by simp⟩ <;>
  · intro s hr
    simp only [execAll, exec, execWrctl, execWrpoly, execWrinit, execWrxor, State.takeResponse, State.setCtrl, State.setPoly,
      State.setInit, State.setXorout, State.invalidateTable, hr]

theorem execAll_descriptorWrites (hr : s.rsp = none) (d : Descriptor) :
    execAll (descriptorWrites d) s = .next (s.loadDescriptor d).invalidateTable := by
  simp only [descriptorWrites, execAll, exec, execWrctl, execWrpoly, execWrinit, execWrxor, State.takeResponse_of_none, hr,
    State.setCtrl_rsp, State.setPoly_rsp, State.setInit_rsp, State.setXorout_rsp, State.invalidateTable_rsp]
  rfl

/-- Settles O27: the four writes commute (`execAll_perm`), and in the order R65 gives they load the row. -/
theorem selpIsTheFourWritesInAnyOrder : Obligations.SelpIsTheFourWritesInAnyOrder := by
  intro s id d is row hr perm
  rw [exec_selp row, ← execAll_descriptorWrites hr]
  exact execAll_perm perm (descriptorWrites_commute d) hr

end Sys2Proof.Machine
end

section
/-! PROOFS. A message begun from any remainder and read out, and a message in two parts (`44_standard_variants.md` R100). -/

namespace Sys2Proof.Machine

variable {w : Nat} {s t : State}

/-- The same state, the host having taken one more response. -/
def State.answered (s : State) (v : Word) : State := { s with taken := s.taken ++ [v] }

/-- The response `RDCRC` gives at width `w` when the bytes `m` have gone on from the remainder in the state. -/
def State.crcAfter (s : State) (w : Nat) (m : List Byte) : Word :=
  zext32 (crcRef m (low w s.poly) (low w s.rem) s.ctrl.refin s.ctrl.refout (low w s.xorout))

theorem State.crcAfter_setRem (hw : w ≤ 32) (r : BitVec w) (m : List Byte) : (s.setRem r).crcAfter w m =
    zext32 (crcRef m (low w s.poly) r s.ctrl.refin s.ctrl.refout (low w s.xorout)) := by
  rw [State.crcAfter, State.setRem_rem, low_zext32 hw]
  rfl

theorem State.crcAfter_setRem_low_rem (hw : w ≤ 32) (m : List Byte) : (s.setRem (low w s.rem)).crcAfter w m = s.crcAfter w m :=
  State.crcAfter_setRem hw _ m

/-- The CRC of two parts is that of the second from the remainder the first leaves. -/
theorem crcRef_append (p i x : BitVec w) (refin refout : Bool) (m n : List Byte) :
    crcRef (m ++ n) p i refin refout x = crcRef n p (remAfter p refin i m) refin refout x := by
  rw [crcRef, remAfter_append]
  rfl

section
variable {m : List Byte} (h : State.Updated w m s t)
include h

theorem State.Updated.taken : t.taken = s.taken := by rw [h.frame]

/-- More bytes after `m` give the CRC of both parts. -/
theorem State.Updated.crcAfter (n : List Byte) : t.crcAfter w n = s.crcAfter w (m ++ n) := by
  rw [State.crcAfter, h.rem, h.poly, h.ctrl, h.xorout, State.crcAfter, crcRef_append]

/-- `SEED` makes of the CRC of `m` the remainder that `m` left. -/
theorem State.Updated.seedRem (hw : s.width = some w) : t.seedRem w (s.crcAfter w m) = low w t.rem := by
  have crc : s.crcAfter w m = zext32 (finalize (low w t.rem) t.ctrl.refout (low w t.xorout)) := congrArg zext32 h.crc.symm
  rw [crc, State.seedRem_finalize (h.width.trans hw)]

end

section
variable (m : List (Engine × Byte)) (hw : s.width = some w) (hc : s.tableCoherent) (hr : s.rsp = none)
include hw hc hr

/-- Updates by any mixture of the engines, then `RDCRC`: the host gets the CRC of the bytes from the remainder in the state. -/
theorem execAll_updates_rdcrc : ∃ t, execAll (updates m ++ [.rdcrc]) s = .next t ∧
    State.Updated w (m.map Prod.snd) (s.answered (s.crcAfter w (m.map Prod.snd))) t := by
  obtain ⟨t, run, updated⟩ := execAll_updates m hw hc hr [.rdcrc]
  refine ⟨_, run.trans (execAll_rdcrc (updated.width.trans hw)), ?_, updated.rem, ?_⟩
  · rw [updated.crc, updated.frame, ← hr]
    rfl
  · exact tableCoherent_congr rfl rfl rfl rfl updated.coherent

/-- The same after a command that loads the remainder, `INIT` or `SEED`. -/
theorem execAll_from_remainder {i : Instr} {r : BitVec w} (start : Effect i s (s.setRem r)) :
    ∃ t, execAll (i :: (updates m ++ [.rdcrc])) s = .next t ∧
      State.Updated w (m.map Prod.snd) ((s.setRem r).answered ((s.setRem r).crcAfter w (m.map Prod.snd))) t := by
  obtain ⟨t, run, updated⟩ := execAll_updates_rdcrc m (s := s.setRem r) hw (start.tableCoherent hc) hr
  exact ⟨t, (execAll_cons_of_next (exec_of_effect start) hr _).trans run, updated⟩

end

/-- Settles O55: after the first part both ways go on from its remainder, which `SEED` makes again of the CRC
(`State.Updated.seedRem`), and the bytes of both parts give the one CRC (`State.Updated.crcAfter`). -/
theorem incrementalEquivalence : Obligations.IncrementalEquivalence := by
  intro s w m1 m2 hw hc hr
  have init := Effect.init s w hw
  obtain ⟨t1, run1, part1⟩ := execAll_from_remainder m1 hw hc hr init
  obtain ⟨t4, run4, whole⟩ := execAll_from_remainder (m1 ++ m2) hw hc hr init
  let c1 := (s.setRem (low w s.init)).crcAfter w (m1.map Prod.snd)
  let c := (s.setRem (low w s.init)).crcAfter w ((m1 ++ m2).map Prod.snd)
  have width1 : t1.width = some w := part1.width.trans hw
  have free1 : t1.rsp = none := part1.rsp.trans hr
  have remainder : t1.seedRem w c1 = low w t1.rem := part1.seedRem hw
  have seed : Effect (.seed c1) t1 (t1.setRem (low w t1.rem)) := remainder ▸ Effect.seed t1 w c1 width1
  obtain ⟨t2, run2, resumed⟩ := execAll_from_remainder m2 width1 part1.coherent free1 seed
  obtain ⟨t3, run3, goneOn⟩ := execAll_updates_rdcrc m2 width1 part1.coherent free1
  have second : t1.crcAfter w (m2.map Prod.snd) = c := by
    rw [part1.crcAfter, ← List.map_append]
    rfl
  rw [State.crcAfter_setRem_low_rem (State.width_le hw), second] at resumed
  rw [second] at goneOn
  have both : t1.taken ++ [c] = s.taken ++ [c1, c] := by
    rw [part1.taken]
    exact List.append_assoc s.taken [c1] [c]
  exact ⟨c1, c, t1, t2, t3, t4, run1, part1.taken, run2, resumed.taken.trans both, run3, goneOn.taken.trans both, run4,
    whole.taken⟩

end Sys2Proof.Machine
end

section
/-! PROOFS. The source's functions as command sequences (`44_standard_variants.md` R101, R102): a preset, then a whole message, a
resumed one, or the table. -/

namespace Sys2Proof.Machine

variable {w : Nat} {s : State}

/-- A message by one engine is a mixture of the engines. -/
theorem msg_eq_updates (e : Engine) (m : List Byte) : msg e m = updates (m.map (e, ·)) := by
  simp only [msg, updates, List.map_map, Function.comp_def]

theorem map_snd_map_engine (e : Engine) (m : List Byte) : (m.map (e, ·)).map Prod.snd = m := by
  rw [List.map_map]
  exact List.map_id m

section
variable {id : Byte} {d : Descriptor} (row : presetRow s.cfg id = some d) (hw : widthOf d.wsel = some w) (hr : s.rsp = none)
include row hr

/-- The commands after a preset run in the state that has its descriptor and no valid table. -/
theorem execAll_selp_cons (is : List Instr) : execAll (.selp id :: is) s = execAll is (s.loadDescriptor d).invalidateTable :=
  execAll_cons_of_next (exec_selp row) hr is

include hw

/-- Under a preset, a message begun by a command that loads the remainder answers its CRC from there. -/
theorem selp_message {i : Instr} {r : BitVec w}
    (start : Effect i (s.loadDescriptor d).invalidateTable ((s.loadDescriptor d).invalidateTable.setRem r)) (e : Engine)
    (m : List Byte) : ∃ t, execAll (.selp id :: i :: (msg e m ++ [.rdcrc])) s = .next t ∧
      t.taken = s.taken ++ [zext32 (crcRef m (low w d.poly) r d.refin d.refout (low w d.xorout))] := by
  have width : (s.loadDescriptor d).invalidateTable.width = some w := hw
  obtain ⟨t, run, updated⟩ := execAll_from_remainder (m.map (e, ·)) width (tableCoherent_of_tv rfl) hr start
  rw [map_snd_map_engine, State.crcAfter_setRem (State.width_le width)] at updated
  rw [execAll_selp_cons row hr, msg_eq_updates]
  exact ⟨t, run, updated.taken⟩

/-- A preset and a whole message. -/
theorem selp_wholeMessage (e : Engine) (m : List Byte) : ∃ t, execAll (.selp id :: wholeMessage e m) s = .next t ∧
    t.taken = s.taken ++ [zext32 (crcRef m (low w d.poly) (low w d.init) d.refin d.refout (low w d.xorout))] :=
  selp_message row hw hr (.init _ w hw) e m

/-- A preset and a message resumed from a CRC. -/
theorem selp_resumedMessage {v : Word} {r : BitVec w} (hv : unfinalize (low w v) d.refout (low w d.xorout) = r) (e : Engine)
    (m : List Byte) : ∃ t, execAll (.selp id :: resumedMessage e v m) s = .next t ∧
      t.taken = s.taken ++ [zext32 (crcRef m (low w d.poly) r d.refin d.refout (low w d.xorout))] := by
  subst hv
  exact selp_message row hw hr (.seed _ w v hw) e m

/-- A preset and its table: nothing but the descriptor and the table changes. -/
theorem selp_tgen : ∃ t, execAll [.selp id, .tgen] s = .next t ∧ (∀ i, t.entry i = zext32 (tblgen w (low w d.poly) i)) ∧
    t = { s with ctrl := { wsel := d.wsel, refin := d.refin, refout := d.refout }, poly := d.poly, init := d.init,
                 xorout := d.xorout, tbl := t.tbl, tv := true } := by
  have tgen := exec_tgen (s := (s.loadDescriptor d).invalidateTable) hw
  exact ⟨_, (execAll_selp_cons row hr _).trans (execAll_cons_of_next tgen hr []), entry_buildTable _ w, rfl⟩

/-- The two functions of the generic pair under one preset. -/
theorem selp_genericPair (e : Engine) (m : List Byte) : ∃ t u,
    execAll (.selp id :: LibCall.commands e (.crcSlow m)) s = .next t ∧
    execAll (.selp id :: LibCall.commands e (.crcFast m)) s = .next u ∧
    t.taken = s.taken ++ [zext32 (crcRef m (low w d.poly) (low w d.init) d.refin d.refout (low w d.xorout))] ∧
    u.taken = t.taken := by
  obtain ⟨t, slow, answer⟩ := selp_wholeMessage row hw hr .serial m
  obtain ⟨u, fast, answer'⟩ := selp_wholeMessage row hw hr .table m
  exact ⟨t, u, slow, fast, answer, answer'.trans answer.symm⟩

end

/-- Settles O58: each function is its preset with a whole message, a message resumed from the accumulator, or the table; `reflect`
of the accumulator is the remainder where the preset reflects and xors nothing. -/
theorem sourceFunctionsAnswerTheirStandardsCrc : Obligations.SourceFunctionsAnswerTheirStandardsCrc := by
  intro s e m hr
  have dvb (c : Byte) : unfinalize (low 8 (zext32 c)) false (low 8 0#32) = c := by
    rw [low_zext32 (by decide)]
    exact unfinalize_false_zero c
  have arc (c : BitVec 16) : unfinalize (low 16 (zext32 c)) true (low 16 0#32) = reflect c := by
    rw [low_zext32 (by decide)]
    exact unfinalize_true_zero c
  refine ⟨fun h => ?_, fun c => ?_, fun c b => ?_, ?_, ?_, fun c => ?_, ?_, ?_, fun w hw => ?_, ?_, ?_⟩
  · have crc8Row : presetRow s.cfg (presetId .crc8) = some Config.crc8Default := congrArg some h
    exact selp_wholeMessage crc8Row rfl hr e m
  · exact selp_resumedMessage (presetRow_crc8Dvbs2 _) rfl hr (dvb c) e m
  · exact selp_resumedMessage (presetRow_crc8Dvbs2 _) rfl hr (dvb c) e [b]
  · exact selp_wholeMessage (presetRow_crc16Arc _) rfl hr .serial m
  · exact selp_wholeMessage (presetRow_crc16Arc _) rfl hr e m
  · exact selp_resumedMessage (presetRow_crc16Arc _) rfl hr (arc c) .table m
  · exact selp_wholeMessage (presetRow_crc16Ccitt _) rfl hr .table m
  · exact selp_wholeMessage (presetRow_crc16Modbus _) rfl hr e m
  · exact ⟨_, execAll_cons_of_next (exec_tgen hw) hr [], entry_buildTable s w, rfl⟩
  · have ccittTable := selp_tgen (presetRow_crc16Ccitt s.cfg) rfl hr
    exact ccittTable
  · have crc32Table := selp_tgen (presetRow_crc32 s.cfg) rfl hr
    exact crc32Table

/-- Settles O59: the pair under the preset of each build name (R102). -/
theorem genericPairAnswersAlike : Obligations.GenericPairAnswersAlike := fun _ e m hr =>
  ⟨selp_genericPair (presetRow_crc16Ccitt _) rfl hr e m, selp_genericPair (presetRow_crc16Arc _) rfl hr e m,
    selp_genericPair (presetRow_crc32 _) rfl hr e m⟩

end Sys2Proof.Machine
end

section
/-! PROOFS. The error flag in place of exceptions (`60_exceptions.md` R110 to R116): its three causes, and that they are all. -/

namespace Sys2Proof.Machine

/-- Settles O35: no meaning faults or is refused (`exec_completes`). -/
theorem everyCommandCompletes : Obligations.EveryCommandCompletes := exec_completes

/-- A reserved opcode flags `E_ILLOP` and does nothing else (R112). -/
theorem exec_illegal {i : Instr} {s : State} (r : i.wellFormed = false) : exec i s = .next (s.flagged .illOp) := by
  rw [← flagError_eq_flagged]
  exact exec_of_effect (.reserved i s r)

/-- Settles O34: the four commands of the reserved opcodes, which the decoder reads whatever `arg` is. -/
theorem reservedOpcodesFlagIllegal : Obligations.ReservedOpcodesFlagIllegal := by
  refine ⟨fun s => ⟨exec_illegal rfl, exec_illegal rfl, exec_illegal rfl, exec_illegal rfl⟩, fun s arg => ?_, ⟨_, rfl, rfl⟩⟩
  rw [decode_reserved0, decode_reservedD, decode_reservedE, decode_reservedF]
  exact ⟨exec_illegal rfl, exec_illegal rfl, exec_illegal rfl, exec_illegal rfl⟩

/-- Settles O37: each cause has an effect of its own, the flag alone; `RDCRC` answers 0 beside it. -/
theorem anErrorHasNoOtherEffect : Obligations.AnErrorHasNoOtherEffect := by
  obtain ⟨_, _, illegalFromReset⟩ := reservedOpcodesFlagIllegal
  obtain ⟨_, _, rdcrcNoWidth, _⟩ := rdcrcAnswersTheCrc
  exact ⟨fun _ _ => exec_illegal, fun _ _ => exec_selp_reserved,
    fun _ _ dp unselected ne => exec_noWidth dp ne (State.width_eq_none.2 unselected),
    fun s unselected => rdcrcNoWidth s (State.width_eq_none.2 unselected),
    illegalFromReset, ⟨_, rfl, rfl, rfl⟩, ⟨_, rfl, rfl⟩⟩

/-! The three causes exclude each other: a data-path command is no reserved opcode and no `SELP`. -/

theorem wellFormed_of_isDataPath {i : Instr} (dp : isDataPath i = true) : i.wellFormed = true := by
  cases i with
  | init | seed | upds | updt | tgen | rdcrc => rfl
  | _ => cases dp

theorem ne_selp_of_isDataPath {i : Instr} (dp : isDataPath i = true) (id : Byte) : i ≠ .selp id := by
  rintro rfl
  cases dp

theorem ne_selp_of_illegal {i : Instr} (r : i.wellFormed = false) (id : Byte) : i ≠ .selp id := by
  rintro rfl
  cases r

theorem isDataPath_of_illegal {i : Instr} (r : i.wellFormed = false) : isDataPath i = false :=
  Bool.eq_false_iff.2 fun dp => by simp [wellFormed_of_isDataPath dp] at r

/-- Settles O36: an effect that raises an error has one of the three causes and not the others, one that raises none has none. -/
theorem errorsAreRaisedExactlyWhenStated : Obligations.ErrorsAreRaisedExactlyWhenStated := by
  intro i s t h noErr noCode
  cases exec_effect h with
  | reserved _ _ r => simp [noErr, r, ne_selp_of_illegal r, isDataPath_of_illegal r]
  | selpReserved _ id ge => simp [noErr, ge, Instr.wellFormed, isDataPath]
  | noWidth _ _ dp ne hw =>
    simp [noErr, dp, State.width_eq_none.1 hw, wellFormed_of_isDataPath dp, ne_selp_of_isDataPath dp]
  | rdcrcNoWidth _ hw => simp [noErr, State.width_eq_none.1 hw, Instr.wellFormed, isDataPath]
  | selp _ id d le row => simp [noErr, noCode, Instr.wellFormed, isDataPath]; omega
  | wrctl | wrpoly | wrinit | wrxor | rdreg => simp [noErr, noCode, Instr.wellFormed, isDataPath]
  | init _ w hw | seed _ w _ hw | upds _ w _ hw | updt _ w _ hw | tgen _ w hw | rdcrc _ w hw =>
    simp [noErr, noCode, State.wsel_ne_unselected hw, Instr.wellFormed, isDataPath]

end Sys2Proof.Machine
end

section
/-! PROOFS. The reset event (`70_reset_and_hazards.md` R130), a message in progress saved and restored (R135), and that nothing
depends on the latencies (R140). -/

namespace Sys2Proof.Machine

/-- Settles O48: the step is `State.resetEvent`, whose field lemmas give the reset values of R23 and what stays. -/
theorem resetEventSetsTheResetValues : Obligations.ResetEventSetsTheResetValues := by
  intro s rest hi
  refine ⟨_, step_reset hi, ?_⟩
  simp

/-- `SEED` of the CRC of one state loads its remainder in any state that finalizes alike (R98). -/
theorem State.seedRem_crc {s t : State} {w : Nat} (hw : t.width = some w) (hc : t.ctrl = s.ctrl)
    (hx : t.xorout = s.xorout) : t.seedRem w (zext32 (s.crc w)) = low w s.rem := by
  rw [State.crc, ← hc, ← hx, State.seedRem_finalize hw]

/-- Settles O56: the response of `RDCRC` is the CRC, from which `SEED` gets the remainder back (`State.seedRem_crc`). -/
theorem suspendedMessageIsRestored : Obligations.SuspendedMessageIsRestored := by
  intro s t w hw hc hx
  have width : t.width = some w := (State.width_congr hc).trans hw
  have seed := Effect.seed t w (zext32 (s.crc w)) width
  rw [State.seedRem_crc width hc hx] at seed
  exact ⟨_, _, exec_rdcrc hw rfl, exec_of_effect seed, rfl⟩

/-- The same state of a block with other latencies. -/
def State.withLatencies (s : State) (l : Latencies) : State := { s with cfg := { s.cfg with lat := l } }

section
variable (s : State) (l : Latencies)

theorem State.withLatencies_flagError (c : ErrCode) :
    (s.flagError c).withLatencies l = (s.withLatencies l).flagError c := by
  rw [flagError_eq_flagged, flagError_eq_flagged]
  rfl

theorem State.withLatencies_ensureTable (w : Nat) :
    (s.ensureTable w).withLatencies l = (s.withLatencies l).ensureTable w := by
  cases h : s.tv <;> simp [State.ensureTable, State.buildTable, State.withLatencies, h]

theorem State.withLatencies_takeResponse : s.takeResponse.withLatencies l = (s.withLatencies l).takeResponse := by
  cases h : s.rsp <;> simp [State.takeResponse, State.withLatencies, h]

/-- The preset ROM, which is all a command reads of the configuration, does not depend on the latencies (R92). -/
theorem presetRow_withLatencies (id : Byte) : presetRow (s.withLatencies l).cfg id = presetRow s.cfg id := rfl

end

/-- A command has the same effect whatever the latencies are (R140). -/
theorem Effect.withLatencies {i : Instr} {s t : State} (h : Effect i s t) (l : Latencies) :
    Effect i (s.withLatencies l) (t.withLatencies l) := by
  cases h with
  | wrctl s ws ri ro => exact .wrctl _ ws ri ro
  | wrpoly s v => exact .wrpoly _ v
  | wrinit s v => exact .wrinit _ v
  | wrxor s v => exact .wrxor _ v
  | selp s id d le row => exact .selp _ id d le ((presetRow_withLatencies s l id).trans row)
  | selpReserved s id ge => exact State.withLatencies_flagError s l _ ▸ .selpReserved _ id ge
  | rdreg s v => cases v <;> exact .rdreg _ _
  | init s w hw => exact .init _ w hw
  | seed s w v hw => exact .seed _ w v hw
  | upds s w b hw => exact .upds _ w b hw
  | updt s w b hw =>
    have updated := Effect.updt (s.withLatencies l) w b hw
    rw [← State.withLatencies_ensureTable] at updated
    exact updated
  | tgen s w hw => exact .tgen _ w hw
  | rdcrc s w hw => exact .rdcrc _ w hw
  | noWidth i s dp ne hw => exact State.withLatencies_flagError s l _ ▸ .noWidth i _ dp ne hw
  | rdcrcNoWidth s hw =>
    have flagged := Effect.rdcrcNoWidth (s.withLatencies l) hw
    rw [← State.withLatencies_flagError] at flagged
    exact flagged
  | reserved i s r => exact State.withLatencies_flagError s l _ ▸ .reserved i _ r

/-- A step that goes on does so whatever the latencies are, to the same state but for them. -/
theorem step_withLatencies {s t : State} (h : step s = .next t) (l : Latencies) :
    step (s.withLatencies l) = .next (t.withLatencies l) := by
  rcases step_next_cases h with ⟨hi, rfl⟩ | ⟨rest, hi, rfl⟩ | ⟨rest, hi, rfl⟩ | ⟨w, rest, hi, hr, run⟩
  · exact step_idle hi
  · exact step_reset hi
  · rw [State.withLatencies_takeResponse]
    exact step_takeResponse hi
  · have accepted := step_command (s := s.withLatencies l) hi hr
    exact accepted.trans (exec_of_effect ((exec_effect run).withLatencies l))

/-- Settles O52: a step that goes on is that of `step_withLatencies`, and a stall reads the ports alone. -/
theorem nothingDependsOnTheLatencies : Obligations.NothingDependsOnTheLatencies := by
  intro s l
  rcases step_next_or_stalled s with ⟨t, e⟩ | ⟨e, ⟨w, rest, hi⟩, v, hr⟩
  · exact .inr ⟨t, e, step_withLatencies e l⟩
  · exact .inl ⟨_, e, step_stalled (s := s.withLatencies l) hi hr⟩

end Sys2Proof.Machine
end
